-- ==== Sys2Proof/Word.lean ====
section
/-! DEFINITION. The two bit-vector types of the block: the byte and the 16-bit port word
(spec 00_scope.md R8, 30_encoding.md R90). -/

namespace Sys2Proof

/-- A byte: 8 bits, bit 0 least significant (R8). -/
abbrev Byte := BitVec 8

/-- One word presented on a command port (R90). -/
abbrev Word := BitVec 16

end Sys2Proof
end

