-- ==== Sys2Proof/Syntax.lean ====
section
/-! DEFINITION. The commands of the block: the two ports, the transmitter types, the eight
instructions of the opcode table and a whole command with its data words
(spec 30_encoding.md R90 to R94). -/

namespace Sys2Proof

/-- The two command ports (00_scope.md R3): `p` is driven by the producer (interrupt context),
`c` by the consumer (main context). -/
inductive Port where
  | p
  | c
deriving DecidableEq, Repr

/-- Transmitter type (10_state.md R28): a transmit-only sensor or a transceiver. -/
inductive TxType where
  | txOnly
  | trx
deriving DecidableEq, Repr

/-- The numeric encoding of a transmitter type: TX_ONLY = 0, TRX = 1 (R28). -/
def TxType.bit : TxType → BitVec 1
  | .txOnly => 0
  | .trx => 1

/-- The transmitter type a bit stands for (R28, R92). -/
def TxType.ofBit (b : BitVec 1) : TxType := if b = 1 then .trx else .txOnly

/-- The eight commands of the opcode map (R93), with the operand fields of R92. For `TXASM` this is
the header word; its data words are no commands (R101). -/
inductive Instr where
  /-- `NOP` (R211). -/
  | nop
  /-- `RXB b`: one received raw byte (R192). -/
  | rxb (b : Byte)
  /-- `RXTYPE t`: the transmitter type told by the producer (R196). -/
  | rxtype (t : TxType)
  /-- `RXRST`: reset of the current slot (R197). -/
  | rxrst
  /-- `RD a`: read of one byte of the read map (R210). -/
  | rd (a : BitVec 12)
  /-- `TXASM c, n`: header of an assembly with `n` data words to follow (R172). -/
  | txasm (c : Bool) (n : Byte)
  /-- `TXNEXT`: emission of the next outbound byte (R180). -/
  | txnext
  /-- `TXRST`: rewinding of the outbound packet (R182). -/
  | txrst
deriving DecidableEq, Repr

/-- How many `DATA16` words follow an instruction's command word (R90, R100). -/
def Instr.dataWords : Instr → Nat
  | .nop => 0
  | .rxb _ => 0
  | .rxtype _ => 0
  | .rxrst => 0
  | .rd _ => 0
  | .txasm _ n => n.toNat
  | .txnext => 0
  | .txrst => 0

/-- A whole command as an agent presents it: the port, the instruction, and the payload bytes of its
data words (R90, R94). -/
structure Command where
  port : Port
  instr : Instr
  payload : List Byte
deriving DecidableEq, Repr

end Sys2Proof
end

