-- ==== Sys2Proof/Config.lean ====
section
/-! DEFINITION. The configuration record of the block (spec 00_scope.md R6, R7), its default values,
and the one free value the spec leaves open (93_implementation_defined.md U1, U2). -/

namespace Sys2Proof

/-- The 2-bit symbol that decodes to data bit 1: `0b10` or `0b01` (R6, `MANCH_ONE`). -/
inductive ManchOne where
  | sym10
  | sym01
deriving DecidableEq, Repr

/-- The decoded layout of one transmitter type: byte offsets in the decoded payload (R6, R155). -/
structure Layout where
  idOff : Nat
  nWatts : Nat
  wattsOff : List Nat
deriving DecidableEq, Repr

/-- The implementation parameters of R6. `TIME_W` is fixed at 32 and stands in the types. -/
structure Config where
  nSlots : Nat
  capacity : Nat
  lenTxOnly : Nat
  lenTrx : Nat
  layoutTxOnly : Layout
  layoutTrx : Layout
  pairMarker : Byte
  manchOne : ManchOne
  preamble : List Byte
  sync : List Byte
  tail : List Byte
deriving DecidableEq, Repr

/-- `DCAP`, the size of the decoded-payload array: half the capacity (R6). -/
def Config.dcap (g : Config) : Nat := g.capacity / 2

/-- `LEN(t)`, the raw length of a frame of type `t` (R7). -/
def Config.len (g : Config) : TxType → Nat
  | .txOnly => g.lenTxOnly
  | .trx => g.lenTrx

/-- `DLEN(t)`, the decoded length of a frame of type `t`, checksum byte included (R7). -/
def Config.dlen (g : Config) (t : TxType) : Nat := g.len t / 2

/-- `LAYOUT(t)` (R6, R155). -/
def Config.layout (g : Config) : TxType → Layout
  | .txOnly => g.layoutTxOnly
  | .trx => g.layoutTrx

/-- The configuration the spec fixes for the hardware: the default column of R6. The preamble, sync
and tail bytes are PRESUMED by the spec itself (log entry 6). -/
def config : Config where
  nSlots := 5
  capacity := 32
  lenTxOnly := 20
  lenTrx := 12
  layoutTxOnly := { idOff := 1, nWatts := 3, wattsOff := [3, 5, 7] }
  layoutTrx := { idOff := 1, nWatts := 1, wattsOff := [3] }
  pairMarker := 0x50
  manchOne := .sym10
  preamble := [0xAA, 0xAA, 0xAA]
  sync := [0x2D, 0xD4]
  tail := [0x40, 0x00]

/-- FREE VALUE. The `n`-th byte the spec leaves unspecified: the response of `TXNEXT` on a drained
packet (U1) and of `RD` on a data register nothing has written since reset (U2). It has no body, so
no proof can rest on its value (log entry 2). -/
opaque Config.freeByte (n : Nat) : Byte

end Sys2Proof
end

