-- ==== Sys2Proof/WellFormed.lean ====
section
/-! DEFINITION. Which commands and which configurations are well formed (spec 30_encoding.md R90,
R100, R110; 00_scope.md R6). Every operand field of an `Instr` has its exact width by type, so an
instruction by itself cannot be ill formed; what remains to check is the port it is presented on,
the number of its data words, and the constraints on the configuration. -/

namespace Sys2Proof

/-- Port permissions (R110): which port accepts an instruction. `NOP` is accepted on both. -/
def Instr.acceptedOn : Instr → Port → Bool
  | .nop, _ => true
  | .rxb _, q => q == .p
  | .rxtype _, q => q == .p
  | .rxrst, q => q == .p
  | .rd _, q => q == .c
  | .txasm _ _, q => q == .c
  | .txnext, q => q == .c
  | .txrst, q => q == .c

/-- A command is well formed when its port accepts it (R110) and it carries exactly the data words
its header announces (R90, R100). -/
def Command.wellFormed (k : Command) : Bool :=
  k.instr.acceptedOn k.port && k.payload.length == k.instr.dataWords

/-- The constraint of R6 on a layout for a frame of raw length `len`: every 2-byte field lies inside
`[0, len/2 - 1)`, there are `nWatts` watt offsets, and at most three (R30). -/
def Layout.wellFormed (l : Layout) (len : Nat) : Bool :=
  (l.idOff :: l.wattsOff).all (fun o => o + 2 ≤ len / 2 - 1) &&
    l.wattsOff.length == l.nWatts && l.nWatts ≤ 3

/-- The constraint column of R6. A configuration that violates it is outside the spec (U8). -/
def Config.wellFormed (g : Config) : Bool :=
  2 ≤ g.nSlots && g.nSlots ≤ 32 &&
  g.capacity % 2 == 0 && 2 ≤ g.capacity && g.capacity ≤ 32 &&
  g.lenTxOnly % 2 == 0 && g.lenTrx < g.lenTxOnly && g.lenTxOnly ≤ g.capacity &&
  g.lenTrx % 2 == 0 && 4 ≤ g.lenTrx &&
  g.layoutTxOnly.wellFormed g.lenTxOnly && g.layoutTrx.wellFormed g.lenTrx &&
  g.sync.length == 2

end Sys2Proof
end

