-- ==== Sys2Proof/Decode.lean ====
section
/-! DEFINITION. The command decoder, total on every word and rejecting by name, and after it the
encoder, both from the encoding tables of the spec (30_encoding.md R91 to R94, R100 to R102). -/

namespace Sys2Proof

/-- Why a word or a word sequence is no command. -/
inductive DecodeError where
  /-- `op` in 0x8..0xF: no row of the opcode map (R102). -/
  | reservedOp (op : BitVec 4)
  /-- `op` in 0x0..0x7 with a "must be 0" bit set (R102). -/
  | mustBeZero (op : BitVec 4)
  /-- There is no word. -/
  | noWord
  /-- A `TXASM` header with fewer data words than it announces (R100). -/
  | truncated
  /-- The port does not accept the command (R110). -/
  | wrongPort
deriving DecidableEq, Repr

/-- `op = w[15:12]` (R91). -/
def opField (w : Word) : BitVec 4 := w.extractLsb' 12 4

/-- `(w & mask) == match`: the word selects a row of the opcode map (R93). -/
def selects (w mask pat : Word) : Bool := w &&& mask == pat

/-- The opcode map (R93) with the operand fields of R92. Every word no row selects is reserved
(R102). -/
def decode (w : Word) : Except DecodeError Instr :=
  if selects w 0xFFFF 0x0000 then .ok .nop
  else if selects w 0xFF00 0x1000 then .ok (.rxb (w.extractLsb' 0 8))
  else if selects w 0xFFFE 0x2000 then .ok (.rxtype (.ofBit (w.extractLsb' 0 1)))
  else if selects w 0xFFFF 0x3000 then .ok .rxrst
  else if selects w 0xF000 0x4000 then .ok (.rd (w.extractLsb' 0 12))
  else if selects w 0xFE00 0x5000 then .ok (.txasm (w.getLsbD 8) (w.extractLsb' 0 8))
  else if selects w 0xFFFF 0x6000 then .ok .txnext
  else if selects w 0xFFFF 0x7000 then .ok .txrst
  else if 8 ≤ (opField w).toNat then .error (.reservedOp (opField w))
  else .error (.mustBeZero (opField w))

/-- The payload byte of a `DATA16` word: `w[7:0]`, with `w[15:8]` ignored (R91, R94). -/
def dataByte (w : Word) : Byte := w.extractLsb' 0 8

/-- Read one whole command of port `q` from a sequence of port words, and the words left over: the
header by R93 and R110, then as many data words as it announces (R100, R101). -/
def decodeCommand (q : Port) : List Word → Except DecodeError (Command × List Word)
  | [] => .error .noWord
  | w :: ws =>
    match decode w with
    | .error e => .error e
    | .ok i =>
      if i.acceptedOn q then
        if ws.length < i.dataWords then .error .truncated
        else .ok (⟨q, i, (ws.take i.dataWords).map dataByte⟩, ws.drop i.dataWords)
      else .error .wrongPort

/-- The command word of an instruction, bit field by bit field from the encoding column of the
opcode table (R91 to R93). -/
def encode : Instr → Word
  | .nop => 0x0000
  | .rxb b => (0x10 : BitVec 8) ++ b
  | .rxtype t => (0x1000 : BitVec 15) ++ t.bit
  | .rxrst => 0x3000
  | .rd a => (0x4 : BitVec 4) ++ a
  | .txasm c n => (0b0101000 : BitVec 7) ++ (BitVec.ofBool c ++ n)
  | .txnext => 0x6000
  | .txrst => 0x7000

/-- A `DATA16` word that carries a payload byte; the ignored bits are written as zeros (R91). -/
def dataWord (b : Byte) : Word := (0x00 : BitVec 8) ++ b

/-- All the words of a command, first word first (R90, R94). -/
def encodeCommand (k : Command) : List Word := encode k.instr :: k.payload.map dataWord

/-- The 16-bit words of an instruction whose first `nbits` bits are `w`, numbered as the opcode table
numbers them: bit 0 is the least significant bit of the first word, a later word's bits count on
from it. -/
def tableWords (nbits w : Nat) : List Word :=
  (List.range ((nbits + 15) / 16)).map fun k => BitVec.ofNat 16 ((w % 2 ^ nbits) >>> (16 * k))

/-- The instruction the decoder reads from a row of the opcode table laid out as port words; `none`
where the decoder refuses. -/
def decodeTableWord (nbits w : Nat) : Option Instr :=
  match tableWords nbits w with
  | [] => none
  | h :: _ =>
    match decode h with
    | .ok i => some i
    | .error _ => none

end Sys2Proof
end

