-- ==== Sys2Proof/Machine/State.lean ====
section
/-! DEFINITION. The state of the block as plain data (spec 10_state.md R20 to R37), the model's own
input, output and free-value fields beside it, the reasons to stop, and the state after reset
(70_reset_and_hazards.md R260). -/

namespace Sys2Proof.Machine

/-- The reasons the machine stops with a fault: NONE. The block raises no exception on any command,
with any operand, in any state (R10, R220), so this type has no constructor, nothing raises a fault,
and a claim that a step does not fault is true of the hardware (safe). -/
inductive Fault where
deriving DecidableEq, Repr

/-- The reasons the model has no meaning for an instruction. -/
inductive Refusal where
  /-- Raised only by an arm of `exec` whose instruction has no meaning yet; no arm is left that raises
  it. Safe: a refused instruction proves nothing. -/
  | notModelled (mnemonic : String)
deriving DecidableEq, Repr

/-- A data register whose value after reset the spec leaves unspecified (R260, U2): what it holds,
and whether a command has stored to it since reset. `written` is the model's own mark. A read of a
register that is not written returns an unspecified value, never `value` (log entry 3). -/
structure Reg (w : Nat) where
  value : BitVec w
  written : Bool
deriving DecidableEq, Repr

/-- A data register after reset: nothing has stored to it, and it holds the value zero, which the
model names because the spec gives none (DESIGN CHOICE, log entry 1). -/
def Reg.reset {w : Nat} : Reg w := ⟨0, false⟩

/-- A data register a command has stored `v` to. -/
def Reg.stored {w : Nat} (v : BitVec w) : Reg w := ⟨v, true⟩

/-- A packet record, the frame accumulator that a slot and the TX packet share by composition
(R120): `bytes` is `slot[k].raw` (R22) in a slot and `tx.bytes` (R34) in the TX packet, `length` is
R25 or R35, `cursor` is R26 or R36. -/
structure Packet where
  bytes : Vector (Reg 8) config.capacity
  length : BitVec 8
  cursor : BitVec 8
deriving DecidableEq, Repr

/-- `slot[k].health` (R27). -/
inductive Health where
  | notChecked
  | ok
  | bad
deriving DecidableEq, Repr

/-- One slot of the pool (R20): the packet record (`raw`, `length`, `cursor`), `health` (R27),
`txType` (R28), `payload` (R23), `id` (R29), `watts` (R30) and `timecode` (R31). -/
structure Slot where
  packet : Packet
  health : Health
  txType : TxType
  payload : Vector (Reg 8) config.dcap
  id : Reg 16
  watts : Vector (Reg 16) 3
  timecode : Reg 32
deriving DecidableEq, Repr

/-- The `TXASM` collector (R37): `buf` holds the payload bytes of the data words taken so far. -/
structure Asm where
  active : Bool
  c : Bool
  n : BitVec 8
  buf : List Byte
deriving DecidableEq, Repr

/-- Everything the outside may do to the block (R272): present a word on a port, change `time_in`,
assert and release `rst`. -/
inductive Input where
  | word (port : Port) (w : Word)
  | time (t : BitVec 32)
  | rst
deriving DecidableEq, Repr

/-- The state. The first five fields are the block's (R20). The others are the MODEL's own: `timeIn`
is the present value of the input `time_in` (R21); `inputs` is what the outside will do, in the order
it happens, which is one interleaving of the two ports (R71, log entry 4); `port` is the port whose
word is being executed; `response` is the response returned by the last step, `none` if it returned
none (R95, log entry 5); `freeCount` counts the free values drawn (log entry 2). -/
structure State where
  slots : Vector Slot config.nSlots
  current : Fin config.nSlots
  rxTypeSel : TxType
  tx : Packet
  asm : Asm
  timeIn : BitVec 32
  inputs : List Input
  port : Port
  response : Option Byte
  freeCount : Nat
deriving DecidableEq, Repr

/-- A packet record after reset with expected length `n`: cursor 0, bytes unspecified (R260). -/
def Packet.atReset (n : Nat) : Packet where
  bytes := Vector.replicate _ Reg.reset
  length := BitVec.ofNat 8 n
  cursor := 0

/-- A slot after reset (R260): empty, NotChecked, TX_ONLY, `length` = LEN_TX_ONLY, data registers
unspecified. -/
def Slot.atReset : Slot where
  packet := Packet.atReset config.lenTxOnly
  health := .notChecked
  txType := .txOnly
  payload := Vector.replicate _ Reg.reset
  id := Reg.reset
  watts := Vector.replicate _ Reg.reset
  timecode := Reg.reset

/-- The collector after reset (R37, R260): inactive and empty. `c` and `n` are unspecified by the
spec and hold zero here (log entry 1); no command can observe them while it is inactive. -/
def Asm.atReset : Asm where
  active := false
  c := false
  n := 0
  buf := []

/-- The machine right after reset (R260): every control register at the value the spec states, every
data register unwritten, nothing presented on a port. -/
def State.reset : State where
  slots := Vector.replicate _ Slot.atReset
  current := ⟨0, by decide⟩
  rxTypeSel := .txOnly
  tx := Packet.atReset 0
  asm := Asm.atReset
  timeIn := 0
  inputs := []
  port := .p
  response := none
  freeCount := 0

end Sys2Proof.Machine
end

