-- ==== Sys2Proof/Machine/Ops.lean ====
section
/-! DEFINITION. The named operations over registers that the commands share: the packet primitives
(spec 40_packet.md R120 to R126), access to the slots (43_packetbuffer.md R190), responses
(30_encoding.md R95), port permission (R110) and the `rst` input (70_reset_and_hazards.md R260).
The block takes no exception and has no return from one (60_exceptions.md R220, R229), so there is
no operation for either. -/

namespace Sys2Proof.Machine

/-! ### Bytes -/

/-- `modularSum(bs)`: the sum of the bytes modulo 256 (R126). -/
def modularSum (bs : List Byte) : Byte := bs.foldl (· + ·) 0

/-! ### Packet primitives -/

/-- The stored byte at index `i`; indices outside the array, which no reachable access uses, give the
value of an unwritten register. -/
def Packet.byteAt (p : Packet) (i : Nat) : Byte := (p.bytes[i]?.getD Reg.reset).value

/-- `Pkt.setLength(p, n)`: clamped to the capacity, no error signalled (R121, C1). -/
def Packet.setLength (p : Packet) (n : Nat) : Packet :=
  { p with length := BitVec.ofNat 8 (min n config.capacity) }

/-- The byte is stored by `Pkt.append` only while `cursor < length` (R122). -/
def Packet.hasRoom (p : Packet) : Bool := p.cursor < p.length

/-- `Pkt.append(p, b)` (R122): store at `cursor` and advance it, or do nothing when there is no
room. The `wrote` result of the rule is `p.hasRoom`. -/
def Packet.append (p : Packet) (b : Byte) : Packet :=
  if p.hasRoom then
    { p with bytes := p.bytes.setIfInBounds p.cursor.toNat (.stored b), cursor := p.cursor + 1 }
  else p

/-- `Pkt.appendN(p, bs)`: one append per byte, lowest index first (R123). -/
def Packet.appendN (p : Packet) (bs : List Byte) : Packet := bs.foldl Packet.append p

/-- `Pkt.reset(p)`: `cursor <- 0` and nothing else (R124). -/
def Packet.rewind (p : Packet) : Packet := { p with cursor := 0 }

/-- `p.cursor <- p.cursor + 1` (R180). -/
def Packet.advance (p : Packet) : Packet := { p with cursor := p.cursor + 1 }

/-- `Pkt.done(p)`: `cursor == length` (R125). -/
def Packet.done (p : Packet) : Bool := p.cursor == p.length

/-! ### Slots -/

/-- `slot[k]`. -/
def State.slot (s : State) (k : Fin config.nSlots) : Slot := s.slots[k]

/-- `slot[k] <- sl`. -/
def State.setSlot (s : State) (k : Fin config.nSlots) (sl : Slot) : State :=
  { s with slots := s.slots.set k sl }

/-- `slot[current]`, the slot every port P command acts on (R190). -/
def State.cur (s : State) : Slot := s.slot s.current

/-- `slot[current] <- sl`. -/
def State.setCur (s : State) (sl : Slot) : State := s.setSlot s.current sl

/-- `(k + 1) mod N_SLOTS` (R191). -/
def nextSlot (k : Fin config.nSlots) : Fin config.nSlots :=
  ⟨(k.val + 1) % config.nSlots, Nat.mod_lt _ (Nat.lt_of_le_of_lt (Nat.zero_le _) k.isLt)⟩

/-! ### Responses -/

/-- The command returns the response byte `b` on the port that issued it (R95). -/
def State.respond (s : State) (b : Byte) : State := { s with response := some b }

/-- The command returns an unspecified byte: a fresh free value (U1, U2). -/
def State.respondFree (s : State) : State :=
  { s with response := some (Config.freeByte s.freeCount), freeCount := s.freeCount + 1 }

/-- The command returns `b`, or an unspecified byte where there is none. -/
def State.respondWith (s : State) : Option Byte → State
  | some b => s.respond b
  | none => s.respondFree

/-- A command with no effect: no register changes, response 0x00 (R102, R110). -/
def State.noOp (s : State) : State := s.respond 0

/-- Port permission (R110): a command has its effect on the port that accepts it and is a no-op with
response 0x00 on the other. -/
def State.onPort (s : State) (q : Port) (effect : State) : Host.Outcome State Fault Refusal :=
  .next (if s.port = q then effect else s.noOp)

/-! ### Reset -/

/-- The `rst` input, asserted and released (R260): every register of the block takes its reset value
and the data registers become unspecified. What the outside will do next and the value it drives on
`time_in` are not the block's and stay. -/
def State.applyRst (s : State) : State :=
  { State.reset with
    timeIn := s.timeIn, inputs := s.inputs, port := s.port, freeCount := s.freeCount }

end Sys2Proof.Machine
end

