-- ==== Sys2Proof/Machine/Flags.lean ====
section
/-! DEFINITION. The four status flags, none of them a stored bit, and the status bytes they are read
in (spec 10_state.md R38; 41_rxpacket.md R153, R154; 20_memory.md R63, R64). -/

namespace Sys2Proof.Machine

/-- The numeric encoding of `health` as the consumer reads it: NotChecked 0, Ok 1, Bad 2 (R27). -/
def Health.byte : Health → Byte
  | .notChecked => 0x00
  | .ok => 0x01
  | .bad => 0x02

/-- The decoded byte at index `j` of a slot. -/
def Slot.payloadAt (sl : Slot) (j : Nat) : Byte := (sl.payload[j]?.getD Reg.reset).value

/-- `DONE(k)` (R38). -/
def Slot.isDone (sl : Slot) : Bool := sl.packet.done

/-- `OK(k)`, `Rx.is_ok` (R38, R153). -/
def Slot.isOk (sl : Slot) : Bool := sl.health == .ok

/-- `PAIRING(k)`, `Rx.is_pairing_request` (R38, R154). -/
def Slot.isPairing (sl : Slot) : Bool := sl.isOk && sl.payloadAt 0 == config.pairMarker

/-- The STATUS byte of a slot (R63): bit 0 DONE, bit 1 OK, bit 2 PAIRING, bit 4 `txType`, the others
zero. -/
def Slot.status (sl : Slot) : Byte :=
  (0b000 : BitVec 3) ++ sl.txType.bit ++ (0b0 : BitVec 1) ++ BitVec.ofBool sl.isPairing ++
    BitVec.ofBool sl.isOk ++ BitVec.ofBool sl.isDone

/-- `TXDONE` (R38). -/
def State.txDone (s : State) : Bool := s.tx.done

/-- The TXSTATUS byte (R64): bit 0 TXDONE, the others zero. -/
def State.txStatus (s : State) : Byte := (0 : BitVec 7) ++ BitVec.ofBool s.txDone

end Sys2Proof.Machine
end

