-- ==== Sys2Proof/Machine/Operands.lean ====
section
/-! DEFINITION. The operand form of `RD`: one absolute 12-bit address of the read map, the block's
only address space (spec 20_memory.md R60 to R69). The map stores nothing: each byte of it is
computed from the registers. `none` is a byte whose value the spec leaves unspecified because nothing
has written the register since reset (93_implementation_defined.md U2). -/

namespace Sys2Proof.Machine

/-- Byte `i` of a data register, byte 0 the least significant (R67 a), unspecified while nothing has
written it (U2). -/
def Reg.byte {w : Nat} (r : Reg w) (i : Nat) : Option Byte :=
  if r.written then some (r.value.extractLsb' (8 * i) 8) else none

/-- A byte array in the map: `bytes[i]` below its size and 0x00 from there on (R63, R64). -/
def arrayByte {n : Nat} (bytes : Vector (Reg 8) n) (i : Nat) : Option Byte :=
  match bytes[i]? with
  | some r => r.byte 0
  | none => some 0

/-- The byte at offset `off` of a slot's 64-byte window (R63). -/
def Slot.windowByte (sl : Slot) (off : BitVec 6) : Option Byte :=
  let o := off.toNat
  if o < 0x20 then arrayByte sl.packet.bytes o
  else if o < 0x30 then arrayByte sl.payload (o - 0x20)
  else
    match o - 0x30 with
    | 0x0 => some sl.packet.length
    | 0x1 => some sl.packet.cursor
    | 0x2 => some sl.health.byte
    | 0x3 => some sl.status
    | 0x4 => sl.id.byte 0
    | 0x5 => sl.id.byte 1
    | 0x6 => sl.watts[0].byte 0
    | 0x7 => sl.watts[0].byte 1
    | 0x8 => sl.watts[1].byte 0
    | 0x9 => sl.watts[1].byte 1
    | 0xA => sl.watts[2].byte 0
    | 0xB => sl.watts[2].byte 1
    | 0xC => sl.timecode.byte 0
    | 0xD => sl.timecode.byte 1
    | 0xE => sl.timecode.byte 2
    | _ => sl.timecode.byte 3

/-- The byte at offset `o` of the TX window `0x800`-`0x83F` (R64). -/
def State.txWindowByte (s : State) (o : Nat) : Option Byte :=
  if o < 0x20 then arrayByte s.tx.bytes o
  else
    match o - 0x20 with
    | 0x0 => some s.tx.length
    | 0x1 => some s.tx.cursor
    | 0x2 => some s.txStatus
    | _ => some 0

/-- The byte at offset `o` of the global window `0x840`-`0x87F` (R65). -/
def State.globalByte (s : State) (o : Nat) : Byte :=
  match o with
  | 0x0 => BitVec.ofNat 8 s.current.val
  | 0x1 => s.rxTypeSel.bit.setWidth 8
  | 0x2 => BitVec.ofNat 8 config.nSlots
  | 0x3 => BitVec.ofNat 8 config.capacity
  | 0x4 => BitVec.ofNat 8 config.lenTxOnly
  | 0x5 => BitVec.ofNat 8 config.lenTrx
  | 0x6 => config.pairMarker
  | _ => 0

/-- `MemRead(a, 1)` (R62): slot windows below `0x800` (R63), the TX window (R64), the global window
(R65), and 0x00 at every other address (R66). -/
def State.memRead (s : State) (a : BitVec 12) : Option Byte :=
  if a.toNat < 0x800 then
    if h : (a.extractLsb' 6 5).toNat < config.nSlots then
      (s.slot ⟨(a.extractLsb' 6 5).toNat, h⟩).windowByte (a.extractLsb' 0 6)
    else some 0
  else if a.toNat < 0x840 then s.txWindowByte (a.toNat - 0x800)
  else if a.toNat < 0x880 then some (s.globalByte (a.toNat - 0x840))
  else some 0

end Sys2Proof.Machine
end

