-- ==== Sys2Proof/Machine/Read.lean ====
section
/-! DEFINITION. The consumer's read command and `NOP` (spec 44_read_port.md R210, R211). -/

namespace Sys2Proof.Machine

/-- `RD a` (R210): the response is `MemRead(a, 1)`, an unspecified byte where the spec gives the
register no value yet (U2). No register of the block changes. -/
def execRd (a : BitVec 12) (s : State) : Host.Outcome State Fault Refusal :=
  s.onPort .c (s.respondWith (s.memRead a))

/-- `NOP`, accepted on both ports (R211). -/
def execNop (s : State) : Host.Outcome State Fault Refusal := .next s.noOp

end Sys2Proof.Machine
end

