-- ==== Sys2Proof/Machine/Manchester.lean ====
section
/-! DEFINITION. The Manchester code of one raw byte and one raw pair (spec 41_rxpacket.md R144,
R145), and the reference encoder of R156, which is not part of the block and stands here because
claims are stated with it. -/

namespace Sys2Proof.Machine

/-- `valid(e)`: all four symbols of the raw byte have two differing bits (R144). -/
def validRaw (e : Byte) : Bool := (e ^^^ (e >>> 1)) &&& 0x55 == 0x55

/-- `nibble(e)`: one data bit a symbol, the first symbol the most significant (R144), for the
polarity `one`. Used only when `validRaw e`. -/
def nibble (one : ManchOne) (e : Byte) : BitVec 4 :=
  match one with
  | .sym10 => e.extractLsb' 7 1 ++ e.extractLsb' 5 1 ++ e.extractLsb' 3 1 ++ e.extractLsb' 1 1
  | .sym01 => e.extractLsb' 6 1 ++ e.extractLsb' 4 1 ++ e.extractLsb' 2 1 ++ e.extractLsb' 0 1

/-- `decode_pair(e_hi, e_lo)`: the even-indexed raw byte gives the high nibble (R145). -/
def decodePair (one : ManchOne) (hi lo : Byte) : Byte := nibble one hi ++ nibble one lo

/-- The symbol of one data bit (R144, R156). -/
def encSymbol (one : ManchOne) (b : Bool) : BitVec 2 :=
  match one with
  | .sym10 => if b then 0b10 else 0b01
  | .sym01 => if b then 0b01 else 0b10

/-- `enc_nibble(v)` (R156), outside the block. -/
def encNibble (one : ManchOne) (v : BitVec 4) : Byte :=
  encSymbol one (v.getLsbD 3) ++ encSymbol one (v.getLsbD 2) ++ encSymbol one (v.getLsbD 1) ++
    encSymbol one (v.getLsbD 0)

/-- `enc_byte(d)`: the high nibble's raw byte first (R156), outside the block. -/
def encByte (one : ManchOne) (d : Byte) : List Byte :=
  [encNibble one (d.extractLsb' 4 4), encNibble one (d.extractLsb' 0 4)]

/-- `enc_byte` of every byte in order (R156), outside the block. -/
def encBytes (one : ManchOne) (ds : List Byte) : List Byte := ds.flatMap (encByte one)

end Sys2Proof.Machine
end

