-- ==== Sys2Proof/Machine/Receive.lean ====
section
/-! DEFINITION. The receive side: the slot's decode pipeline (spec 41_rxpacket.md R142 to R152), the
slot pool (43_packetbuffer.md R190, R191) and the port P commands `RXB`, `RXTYPE`, `RXRST` (R192,
R196, R197). -/

namespace Sys2Proof.Machine

/-- `Rx.reset(s)` with the transmitter type last told (R142): cursor, health, type and length; the
data registers keep their contents. -/
def Slot.rxReset (sl : Slot) (sel : TxType) : Slot :=
  { sl with
    packet := sl.packet.rewind.setLength (config.len sel)
    health := .notChecked
    txType := sel }

/-- Every raw byte below `length` is valid: the condition of R147. -/
def Slot.symbolsValid (sl : Slot) : Bool :=
  (List.range sl.packet.length.toNat).all fun i => validRaw (sl.packet.byteAt i)

/-- Decoded byte `j`, from raw bytes `2j` and `2j+1` (R145, R147). -/
def Slot.decodedByte (sl : Slot) (j : Nat) : Byte :=
  decodePair config.manchOne (sl.packet.byteAt (2 * j)) (sl.packet.byteAt (2 * j + 1))

/-- `Rx.de_manchesterise(s)` on success: `payload[0 : length/2)` is written, the rest of the array
keeps its contents (R147). On failure the slot is unchanged. -/
def Slot.deManchesterise (sl : Slot) : Slot :=
  { sl with
    payload := (List.range (sl.packet.length.toNat / 2)).foldl
      (fun v j => v.setIfInBounds j (.stored (sl.decodedByte j))) sl.payload }

/-- `Rx.verify_checksum(s)`: the sum of the decoded bytes before the last equals the last (R148). -/
def Slot.checksumMatches (sl : Slot) : Bool :=
  let d := sl.packet.length.toNat / 2
  modularSum ((List.range (d - 1)).map sl.payloadAt) == sl.payloadAt (d - 1)

/-- A 16-bit field of the decoded payload at offset `o`, big-endian (R149, R150, R67 b). -/
def Slot.field16 (sl : Slot) (o : Nat) : BitVec 16 := sl.payloadAt o ++ sl.payloadAt (o + 1)

/-- `Rx.decode_id(s)` (R149). -/
def Slot.decodeId (sl : Slot) : Slot :=
  { sl with id := .stored (sl.field16 (config.layout sl.txType).idOff) }

/-- The reading of channel `c`: its field, or 0 for a channel the layout lacks (R150, C6). -/
def Slot.wattReading (sl : Slot) (c : Nat) : BitVec 16 :=
  let lay := config.layout sl.txType
  if c < lay.nWatts then sl.field16 (lay.wattsOff.getD c 0) else 0

/-- `Rx.decode_wattage(s)`: all three registers are written every time (R150). -/
def Slot.decodeWattage (sl : Slot) : Slot :=
  { sl with
    watts := #v[.stored (sl.wattReading 0), .stored (sl.wattReading 1), .stored (sl.wattReading 2)] }

/-- The checks and extractions of `Rx.post_process`, short-circuiting on the first failure (R146):
an invalid symbol (E1), a checksum mismatch (E2), or both passed. -/
def Slot.decodePacket (sl : Slot) : Slot :=
  if sl.symbolsValid then
    let d := sl.deManchesterise
    if d.checksumMatches then { d.decodeId.decodeWattage with health := .ok }
    else { d with health := .bad }
  else { sl with health := .bad }

/-- `Rx.post_process(s, t)`: decode, then capture the time whatever the health (R146, R152). -/
def Slot.postProcess (sl : Slot) (t : BitVec 32) : Slot :=
  { sl.decodePacket with timecode := .stored t }

/-- The slot with a raw byte appended to its packet (R122). -/
def Slot.store (sl : Slot) (b : Byte) : Slot := { sl with packet := sl.packet.append b }

/-- Storing a raw byte makes the packet done as a result: `wrote` and then `cursor == length`
(R143, C7). -/
def Slot.completes (sl : Slot) (b : Byte) : Bool :=
  sl.packet.hasRoom && (sl.packet.append b).done

/-- `Rx.append(s, b, t)` (R143). Its `completed` result is `sl.completes b`. -/
def Slot.rxAppend (sl : Slot) (b : Byte) (t : BitVec 32) : Slot :=
  if sl.completes b then (sl.store b).postProcess t else sl.store b

/-- The rotation of R191: `current` advances by one modulo `N_SLOTS` and the new current slot is
reset. -/
def State.rotate (s : State) : State :=
  let n := nextSlot s.current
  { s with current := n }.setSlot n ((s.slot n).rxReset s.rxTypeSel)

/-- `Buf.append(b, t)` with `t` sampled from `time_in` (R191). Its result is
`s.cur.completes b`. -/
def State.bufAppend (s : State) (b : Byte) : State :=
  let s1 := s.setCur (s.cur.rxAppend b s.timeIn)
  if s.cur.completes b then s1.rotate else s1

/-- `RXB b` (R192): response 0x01 when the command completed the packet. -/
def execRxb (b : Byte) (s : State) : Host.Outcome State Fault Refusal :=
  s.onPort .p ((s.bufAppend b).respond (if s.cur.completes b then 0x01 else 0x00))

/-- The slot sized for the transmitter type `t` (R196). -/
def Slot.retype (sl : Slot) (t : TxType) : Slot :=
  { sl with txType := t, packet := sl.packet.setLength (config.len t) }

/-- The effect of `RXTYPE t` (R196): `rx_type_sel`, and the current slot's type and length if it is
still empty. -/
def State.tellType (s : State) (t : TxType) : State :=
  let told := { s with rxTypeSel := t }
  if s.cur.packet.cursor = 0 then told.setCur (s.cur.retype t) else told

/-- `RXTYPE t` (R196). -/
def execRxtype (t : TxType) (s : State) : Host.Outcome State Fault Refusal :=
  s.onPort .p ((s.tellType t).respond 0)

/-- `RXRST`: `Rx.reset(slot[current])` (R197). -/
def execRxrst (s : State) : Host.Outcome State Fault Refusal :=
  s.onPort .p ((s.setCur (s.cur.rxReset s.rxTypeSel)).respond 0)

end Sys2Proof.Machine
end

