-- ==== Sys2Proof/Machine/Transmit.lean ====
section
/-! DEFINITION. The transmit side: frame assembly (spec 42_txpacket.md R171 to R175), the data words
of `TXASM` (30_encoding.md R101), and the port C commands `TXASM`, `TXNEXT`, `TXRST` (R172, R180 to
R182). -/

namespace Sys2Proof.Machine

/-- `frame(P, c)`: preamble, sync word, payload, the checksum of the payload when asked for, tail
(R175). -/
def frame (payload : List Byte) (c : Bool) : List Byte :=
  config.preamble ++ config.sync ++ payload ++ (if c then [modularSum payload] else []) ++ config.tail

/-- `Tx.assemble(P, c)` on the TX packet (R171): the frame, cut at the capacity (R173), ready to
emit. -/
def Packet.assemble (tx : Packet) (payload : List Byte) (c : Bool) : Packet :=
  let f := frame payload c
  ((tx.rewind.setLength f.length).appendN f).rewind

/-- The header of `TXASM c, n` (R172): assemble at once when no data words follow, else start the
collector. -/
def State.startAssembly (s : State) (c : Bool) (n : Byte) : State :=
  if n = 0 then { s with tx := s.tx.assemble [] c }
  else { s with asm := { active := true, c := c, n := n, buf := [] } }

/-- A word taken on port C in data-word mode (R101): it is collected whatever its bits, and the last
one assembles the frame and leaves the mode. Response 0x00. -/
def State.takeDataWord (s : State) (w : Word) : State :=
  let buf := s.asm.buf ++ [dataByte w]
  let collected :=
    if buf.length = s.asm.n.toNat then
      { s with
        tx := s.tx.assemble buf s.asm.c
        asm := { s.asm with active := false, buf := [] } }
    else { s with asm := { s.asm with buf := buf } }
  collected.respond 0

/-- `TXASM c, n` (R172). -/
def execTxasm (c : Bool) (n : Byte) (s : State) : Host.Outcome State Fault Refusal :=
  s.onPort .c ((s.startAssembly c n).respond 0)

/-- The effect of `TXNEXT`: emit the byte at the cursor and advance it (R180); on a drained packet no
register changes and the response is unspecified (R181, U1). -/
def State.emitNext (s : State) : State :=
  if s.tx.hasRoom then
    { s with tx := s.tx.advance }.respond (s.tx.byteAt s.tx.cursor.toNat)
  else s.respondFree

/-- `TXNEXT` (R180, R181). -/
def execTxnext (s : State) : Host.Outcome State Fault Refusal := s.onPort .c s.emitNext

/-- `TXRST`: `Pkt.reset(tx)` (R182). -/
def execTxrst (s : State) : Host.Outcome State Fault Refusal :=
  s.onPort .c ({ s with tx := s.tx.rewind }.respond 0)

end Sys2Proof.Machine
end

