-- ==== Sys2Proof/Machine/Dispatch.lean ====
section
/-! DEFINITION. One arm per instruction: the meaning of a command presented on the state's port. -/

namespace Sys2Proof.Machine

def exec (i : Instr) (s : State) : Host.Outcome State Fault Refusal :=
  match i with
  | .nop => Sys2Proof.Machine.execNop s
  | .rxb b => Sys2Proof.Machine.execRxb b s
  | .rxtype t => Sys2Proof.Machine.execRxtype t s
  | .rxrst => Sys2Proof.Machine.execRxrst s
  | .rd a => Sys2Proof.Machine.execRd a s
  | .txasm c n => Sys2Proof.Machine.execTxasm c n s
  | .txnext => Sys2Proof.Machine.execTxnext s
  | .txrst => Sys2Proof.Machine.execTxrst s

end Sys2Proof.Machine
end

