-- ==== Sys2Proof/Machine/Fetch.lean ====
section
/-! DEFINITION. What the block does with the next thing the outside presents, up to the point where
a decoded instruction is ready to run (spec 30_encoding.md R101, R102; 20_memory.md R70, R71;
70_reset_and_hazards.md R260, R272), and how an instruction is placed where the next step takes
it. -/

namespace Sys2Proof.Machine

/-- The next input taken: an instruction to run on a state, or a state where nothing is left to
run. -/
inductive Fetched where
  | run (i : Instr) (s : State)
  | done (s : State)
deriving DecidableEq, Repr

/-- A word presented on port `q`: a data word when port C is in data-word mode (R101), a command when
it decodes (R93), and a no-op otherwise (R102). -/
def State.takeWord (s : State) (q : Port) (w : Word) : Fetched :=
  let s := { s with port := q }
  if q = .c ∧ s.asm.active = true then .done (s.takeDataWord w)
  else
    match decode w with
    | .ok i => .run i s
    | .error _ => .done s.noOp

/-- Take the next input. With none the block is idle: it takes no step of its own (R3), so nothing
changes and nothing is returned. -/
def State.fetch (s : State) : Fetched :=
  match s.inputs with
  | [] => .done { s with response := none }
  | .rst :: rest => .done { s with inputs := rest }.applyRst
  | .time t :: rest => .done { s with inputs := rest, timeIn := t, response := none }
  | .word q w :: rest => { s with inputs := rest }.takeWord q w

/-- The port on which an instruction is executed (R110). `NOP` runs on both; here on port P. -/
def homePort (w : Word) : Port :=
  match decode w with
  | .ok i => if i.acceptedOn .p then .p else .c
  | .error _ => .p

/-- The words of the instruction with first `nbits` bits `w`, the bits above them zero: the table's
words and then zero data words up to what the header announces. -/
def programWords (nbits w : Nat) : List Word :=
  match tableWords nbits w with
  | [] => []
  | h :: ws =>
    let n :=
      match decode h with
      | .ok i => i.dataWords
      | .error _ => 0
    h :: (ws ++ List.replicate n 0).take n

end Sys2Proof.Machine
end

