-- ==== Sys2Proof/Machine/Step.lean ====
section
/-! DEFINITION. One step of the machine: take the next input and run the instruction it holds, as
one atomic step (spec 20_memory.md R70). -/

namespace Sys2Proof.Machine

/-- One step: whatever the next input is, the whole of its effect happens at one instant (R70). -/
def step (s : State) : Host.Outcome State Fault Refusal :=
  match s.fetch with
  | .run i t => exec i t
  | .done t => .next t

/-- The state with one instruction placed where the next step takes it: its words come first on the
port that executes it, and port C is out of data-word mode if the words come there. A word port has
no program memory, so this stands for the agent that presents the command (log entry 4). -/
def State.withFetchWord (s : State) (nbits w : Nat) : State :=
  match programWords nbits w with
  | [] => s
  | h :: ws =>
    { s with
      inputs := (h :: ws).map (Input.word (homePort h)) ++ s.inputs
      asm := if homePort h = .c then { s.asm with active := false, buf := [] } else s.asm }

end Sys2Proof.Machine
end

