-- ==== Sys2Proof/Safety.lean ====
section
/-! DEFINITION. The terms claims about the block are stated in: its invariants (spec 10_state.md
R39), which data registers a run has written (93_implementation_defined.md U2), the split of the
state between the two contexts (R40), what an agent presents, and runs over a list of inputs. -/

namespace Sys2Proof.Machine

/-! ### Invariants -/

/-- R39 item 1 for one packet record: `cursor <= length <= CAPACITY`. -/
abbrev Packet.Inv (p : Packet) : Prop := p.cursor ≤ p.length ∧ p.length.toNat ≤ config.capacity

/-- R39 items 1, 2 and 6 for one slot: the bounds, the length of its type, and NotChecked exactly
while bytes are missing. -/
abbrev Slot.Inv (sl : Slot) : Prop :=
  sl.packet.Inv ∧ sl.packet.length.toNat = config.len sl.txType ∧
    (sl.health = .notChecked ↔ sl.packet.cursor < sl.packet.length)

/-- R39 item 5: a slot that completed and was not reused, or was not used since reset. -/
abbrev Slot.Parked (sl : Slot) : Prop :=
  sl.packet.cursor = sl.packet.length ∨ (sl.packet.cursor = 0 ∧ sl.health = .notChecked)

/-- The invariants of R39. Items 3 and 7 hold by the types of `current` and `health`. -/
abbrev State.Inv (s : State) : Prop :=
  (∀ k, (s.slot k).Inv) ∧ s.tx.Inv ∧
    s.cur.packet.cursor < s.cur.packet.length ∧
    (∀ k, k ≠ s.current → (s.slot k).Parked) ∧
    (s.asm.active = true → s.asm.buf.length < s.asm.n.toNat)

/-! ### Written data registers -/

/-- The data registers of a slot that are meaningful are written (U2): the raw bytes received, the
time once the packet completed, and the identifier, the readings and the decoded bytes of an Ok
packet. -/
abbrev Slot.Written (sl : Slot) : Prop :=
  (∀ i : Fin config.capacity, i.val < sl.packet.cursor.toNat → sl.packet.bytes[i].written = true) ∧
    (sl.health ≠ .notChecked → sl.timecode.written = true) ∧
    (sl.health = .ok → sl.id.written = true ∧ (∀ c : Fin 3, sl.watts[c].written = true) ∧
      ∀ j : Fin config.dcap, j.val < sl.packet.length.toNat / 2 → sl.payload[j].written = true)

/-- Every meaningful data register of the block is written: those of each slot, and the bytes of the
assembled frame. -/
abbrev State.Written (s : State) : Prop :=
  (∀ k, (s.slot k).Written) ∧
    ∀ i : Fin config.capacity, i.val < s.tx.length.toNat → s.tx.bytes[i].written = true

/-! ### The two contexts -/

/-- What port P commands may write (R40): the pool and the type told. -/
def State.rxSide (s : State) : Vector Slot config.nSlots × Fin config.nSlots × TxType :=
  (s.slots, s.current, s.rxTypeSel)

/-- What port C commands may write (R40): the TX packet and the collector. -/
def State.txSide (s : State) : Packet × Asm := (s.tx, s.asm)

/-- Whether an input is a word on port `q`. -/
def Input.onPort (q : Port) : Input → Bool
  | .word q' _ => q' == q
  | .time _ => false
  | .rst => false

/-- The word an input presents on port `q`, if it presents one there. -/
def Input.wordOn (q : Port) : Input → Option Word
  | .word q' w => if q' = q then some w else none
  | .time _ => none
  | .rst => none

/-- The words a command puts on its port. -/
def Command.present (k : Command) : List Input := (encodeCommand k).map (Input.word k.port)

/-- The `RXB` words a byte source puts on port P for a list of raw bytes (R112, `RXFRAME`). -/
def rxFrame (bs : List Byte) : List Input := bs.map fun b => .word .p (encode (.rxb b))

/-- `n` `TXNEXT` words on port C (R112, the commands of `TXDRAIN`). -/
def drain (n : Nat) : List Input := List.replicate n (.word .c (encode .txnext))

/-! ### Received frames -/

/-- The raw frame the current packet holds once the byte `b` has been stored at its cursor. -/
def Slot.frameWith (sl : Slot) (b : Byte) : List Byte :=
  (List.range sl.packet.length.toNat).map fun i =>
    if i = sl.packet.cursor.toNat then b else sl.packet.byteAt i

/-- The decoded bytes of a raw frame, two raw bytes a decoded byte (R145, R147). -/
def decodeFrame (raw : List Byte) : List Byte :=
  (List.range (raw.length / 2)).map fun j =>
    decodePair config.manchOne (raw.getD (2 * j) 0) (raw.getD (2 * j + 1) 0)

/-- Every symbol of a raw frame is valid (R144, R147). -/
def frameValid (raw : List Byte) : Bool := raw.all validRaw

/-- The checksum rule on decoded bytes: the sum of all but the last equals the last (R148). -/
def checksumOk (dec : List Byte) : Bool :=
  modularSum (dec.take (dec.length - 1)) == dec.getD (dec.length - 1) 0

/-- A big-endian 16-bit field of decoded bytes (R149, R150). -/
def fieldAt (dec : List Byte) (o : Nat) : BitVec 16 := dec.getD o 0 ++ dec.getD (o + 1) 0

/-- The readings of decoded bytes laid out for type `t`; 0 for a channel the layout lacks (R150). -/
def wattAt (t : TxType) (dec : List Byte) (c : Nat) : BitVec 16 :=
  if c < (config.layout t).nWatts then fieldAt dec ((config.layout t).wattsOff.getD c 0) else 0

/-! ### Runs -/

/-- The state after the outside does `ins` in this order, starting from `s` with nothing else
pending: one step an input. `none` if a step does not answer a next state. -/
def State.runInputs (s : State) : List Input → Option State
  | [] => some s
  | i :: is =>
    match step { s with inputs := [i] } with
    | .next t => t.runInputs is
    | .fault _ => none
    | .refused _ => none

/-- The responses returned while the outside does `ins`, one entry an input (R95); `none` for an input
that returns no response. -/
def State.responses (s : State) : List Input → List (Option Byte)
  | [] => []
  | i :: is =>
    match step { s with inputs := [i] } with
    | .next t => t.response :: t.responses is
    | .fault _ => []
    | .refused _ => []

/-- Whether the last step completed a packet: it answered 0x01 on port P (R226). -/
def State.notified (s : State) : Bool := s.port == .p && s.response == some 0x01

/-- The number of packets completed while the outside does `ins` (R194). -/
def State.completions (s : State) : List Input → Nat
  | [] => 0
  | i :: is =>
    match step { s with inputs := [i] } with
    | .next t => (if t.notified then 1 else 0) + t.completions is
    | .fault _ => 0
    | .refused _ => 0

/-- How many rotations bring the current slot to `k`. -/
def State.distance (s : State) (k : Fin config.nSlots) : Nat :=
  (k.val + config.nSlots - s.current.val) % config.nSlots

end Sys2Proof.Machine
end

