-- ==== Sys2Proof/Certificates/Slice0/Obligations.lean ====
section
/-! DEFINITION. The statements about the model, each formalising rules of the spec. -/

open Sys2Proof Sys2Proof.Machine

/-! ### Encoding -/

/-- Every instruction decodes from its own encoding, every operand at every value (R92, R93). -/
def Obligations.InstrDecodesFromItsEncoding : Prop :=
  ∀ i : Instr, decode (encode i) = .ok i

/-- A command word has one meaning: a word that decodes is the encoding of what it decodes to. -/
def Obligations.DecodedWordIsItsEncoding : Prop :=
  ∀ (w : Word) (i : Instr), decode w = .ok i → encode i = w

/-- A whole well-formed command, data words included, reads back from its words, and the words after
it are left over (R90, R94, R100). -/
def Obligations.CommandReadsBackFromItsWords : Prop :=
  ∀ (k : Command) (rest : List Word), k.wellFormed = true →
    decodeCommand k.port (encodeCommand k ++ rest) = .ok (k, rest)

/-- The opcode map (R93): each row's words decode to its instruction with the operand fields of R92,
no word selects two rows, and a word that selects none is refused by name. -/
def Obligations.DecoderFollowsOpcodeMap : Prop :=
  ∀ w : Word,
    (w &&& 0xFFFF = 0x0000 → decode w = .ok .nop) ∧
    (w &&& 0xFF00 = 0x1000 → decode w = .ok (.rxb (w.extractLsb' 0 8))) ∧
    (w &&& 0xFFFE = 0x2000 → decode w = .ok (.rxtype (if w.getLsbD 0 then .trx else .txOnly))) ∧
    (w &&& 0xFFFF = 0x3000 → decode w = .ok .rxrst) ∧
    (w &&& 0xF000 = 0x4000 → decode w = .ok (.rd (w.extractLsb' 0 12))) ∧
    (w &&& 0xFE00 = 0x5000 → decode w = .ok (.txasm (w.getLsbD 8) (w.extractLsb' 0 8))) ∧
    (w &&& 0xFFFF = 0x6000 → decode w = .ok .txnext) ∧
    (w &&& 0xFFFF = 0x7000 → decode w = .ok .txrst) ∧
    ([((0xFFFF, 0x0000) : Word × Word), (0xFF00, 0x1000), (0xFFFE, 0x2000), (0xFFFF, 0x3000),
        (0xF000, 0x4000), (0xFE00, 0x5000), (0xFFFF, 0x6000), (0xFFFF, 0x7000)].Pairwise
      fun r q => ¬ (w &&& r.1 = r.2 ∧ w &&& q.1 = q.2)) ∧
    ((∀ r ∈ [((0xFFFF, 0x0000) : Word × Word), (0xFF00, 0x1000), (0xFFFE, 0x2000), (0xFFFF, 0x3000),
        (0xF000, 0x4000), (0xFE00, 0x5000), (0xFFFF, 0x6000), (0xFFFF, 0x7000)], w &&& r.1 ≠ r.2) →
      decode w = .error (.reservedOp (w.extractLsb' 12 4)) ∨
        decode w = .error (.mustBeZero (w.extractLsb' 12 4)))

/-- Words written out in R111 and in vectors V60 to V75 decode to the commands they stand for. -/
def Obligations.SpecWordsDecode : Prop :=
  decode 0x0000 = .ok .nop ∧ decode 0x109A = .ok (.rxb 0x9A) ∧
    decode 0x2001 = .ok (.rxtype .trx) ∧ decode 0x3000 = .ok .rxrst ∧
    decode 0x4033 = .ok (.rd 0x033) ∧ decode 0x5102 = .ok (.txasm true 2) ∧
    decode 0x6000 = .ok .txnext ∧ decode 0x7000 = .ok .txrst ∧
    decode 0x1100 = .error (.mustBeZero 1) ∧ decode 0x8000 = .error (.reservedOp 8)

/-! ### Steps -/

/-- A word on a port runs as the instruction it decodes to, unless port C is in data-word mode: the
step is `exec` of that instruction on the state with the word taken and its port noted (R70, R93). -/
def Obligations.StepRunsTheDecodedInstruction : Prop :=
  ∀ (s : State) (q : Port) (w : Word) (rest : List Input) (i : Instr),
    s.inputs = .word q w :: rest → decode w = .ok i → ¬ (q = .c ∧ s.asm.active = true) →
      step s = exec i { s with inputs := rest, port := q }

/-- Data-word mode (R101): a word on port C is collected whatever its bits; the one that completes the
payload assembles the frame and leaves the mode. The response is 0x00. -/
def Obligations.DataWordIsCollected : Prop :=
  ∀ (s : State) (w : Word) (rest : List Input),
    s.inputs = .word .c w :: rest → s.asm.active = true →
      step s = .next (
        if s.asm.buf.length + 1 = s.asm.n.toNat then
          { s with
            inputs := rest, port := .c, response := some 0x00
            tx := s.tx.assemble (s.asm.buf ++ [w.extractLsb' 0 8]) s.asm.c
            asm := { s.asm with active := false, buf := [] } }
        else
          { s with
            inputs := rest, port := .c, response := some 0x00
            asm := { s.asm with buf := s.asm.buf ++ [w.extractLsb' 0 8] } })

/-- A reserved word taken as a command is a no-op on either port: one word long, response 0x00, no
register changed (R102). -/
def Obligations.ReservedWordIsNoOp : Prop :=
  ∀ (s : State) (q : Port) (w : Word) (rest : List Input),
    s.inputs = .word q w :: rest → ¬ (q = .c ∧ s.asm.active = true) →
    (w &&& 0xFFFF ≠ 0x0000 ∧ w &&& 0xFF00 ≠ 0x1000 ∧ w &&& 0xFFFE ≠ 0x2000 ∧ w &&& 0xFFFF ≠ 0x3000 ∧
      w &&& 0xF000 ≠ 0x4000 ∧ w &&& 0xFE00 ≠ 0x5000 ∧ w &&& 0xFFFF ≠ 0x6000 ∧ w &&& 0xFFFF ≠ 0x7000) →
      step s = .next { s with inputs := rest, port := q, response := some 0x00 }

/-- A command on the port that does not accept it is a no-op with response 0x00 (R110): `RXB`,
`RXTYPE`, `RXRST` on port C, the others but `NOP` on port P. -/
def Obligations.WrongPortCommandIsNoOp : Prop :=
  ∀ (s : State) (i : Instr),
    (s.port = .c ∧ ((∃ b, i = .rxb b) ∨ (∃ t, i = .rxtype t) ∨ i = .rxrst)) ∨
      (s.port = .p ∧ ((∃ a, i = .rd a) ∨ (∃ c n, i = .txasm c n) ∨ i = .txnext ∨ i = .txrst)) →
      exec i s = .next { s with response := some 0x00 }

/-- Every command on every port with every operand answers a next state with a response, and every
step answers a next state: the block has no fault, trap or refusal (R10, R220). -/
def Obligations.NothingEverStops : Prop :=
  (∀ (i : Instr) (s : State), ∃ t b, exec i s = .next t ∧ t.response = some b) ∧
    ∀ s : State, ∃ t, step s = .next t

/-- The model's list of pending inputs is taken one a step from its head, and what a step does with the
first does not depend on those behind it, which stay as they are. The spec has commands executed one
at a time (R70); the list itself is the model's choice (log entry 4), and so is that the inputs behind
stay when the first is `rst` or a change of `time_in` (log entries 9 and 7). -/
def Obligations.InputsAreTakenInOrder : Prop :=
  ∀ (s t : State) (i : Input) (rest : List Input),
    step { s with inputs := [i] } = .next t →
      t.inputs = [] ∧ step { s with inputs := i :: rest } = .next { t with inputs := rest }

/-- The block takes no step of its own (R3): with nothing presented no register changes, and a change
of `time_in` changes no register. The pending inputs and the response are the model's own fields (log
entries 4 and 5). -/
def Obligations.BlockActsOnlyOnCommands : Prop :=
  ∀ s : State,
    (s.inputs = [] → step s = .next { s with response := none }) ∧
    ∀ (t : BitVec 32) (rest : List Input), s.inputs = .time t :: rest →
      step s = .next { s with inputs := rest, timeIn := t, response := none }

/-! ### Reset -/

/-- The control registers after reset (R260). The values of the data registers, which the spec leaves
unspecified, are not stated; that none of them is written yet is, by the model's own marks (log entry
3). -/
def Obligations.ResetValuesOfControlRegisters : Prop :=
  (∀ k, (State.reset.slot k).packet.cursor = 0 ∧ (State.reset.slot k).health = .notChecked ∧
      (State.reset.slot k).txType = .txOnly ∧
      (State.reset.slot k).packet.length.toNat = config.lenTxOnly) ∧
    State.reset.current.val = 0 ∧ State.reset.rxTypeSel = .txOnly ∧
    State.reset.tx.length = 0 ∧ State.reset.tx.cursor = 0 ∧
    State.reset.asm.active = false ∧ State.reset.asm.buf = [] ∧
    (∀ k, (∀ i : Fin config.capacity, (State.reset.slot k).packet.bytes[i].written = false) ∧
      (∀ j : Fin config.dcap, (State.reset.slot k).payload[j].written = false) ∧
      (State.reset.slot k).id.written = false ∧
      (∀ c : Fin 3, (State.reset.slot k).watts[c].written = false) ∧
      (State.reset.slot k).timecode.written = false) ∧
    ∀ i : Fin config.capacity, State.reset.tx.bytes[i].written = false

/-- The `rst` input (R260), in any state and whatever is in progress: every register takes its reset
value, and the inputs behind it are still to come. The values of the data registers after reset are
the model's choice (log entry 1), and so is that the inputs and `time_in` stay (log entry 9). -/
def Obligations.RstInputResetsEveryRegister : Prop :=
  ∀ (s : State) (rest : List Input), s.inputs = .rst :: rest →
    ∃ t, step s = .next t ∧ t.slots = State.reset.slots ∧ t.current = State.reset.current ∧
      t.rxTypeSel = State.reset.rxTypeSel ∧ t.tx = State.reset.tx ∧ t.asm = State.reset.asm ∧
      t.inputs = rest ∧ t.timeIn = s.timeIn ∧ t.response = none

/-- What the consumer reads right after reset (R261). -/
def Obligations.ResetStateReadsAsStated : Prop :=
  (∀ k : Fin config.nSlots,
      State.reset.memRead (BitVec.ofNat 12 (0x40 * k.val + 0x30)) = some 0x14 ∧
      State.reset.memRead (BitVec.ofNat 12 (0x40 * k.val + 0x31)) = some 0x00 ∧
      State.reset.memRead (BitVec.ofNat 12 (0x40 * k.val + 0x32)) = some 0x00 ∧
      State.reset.memRead (BitVec.ofNat 12 (0x40 * k.val + 0x33)) = some 0x00) ∧
    State.reset.memRead 0x840 = some 0x00 ∧ State.reset.memRead 0x841 = some 0x00 ∧
    State.reset.memRead 0x820 = some 0x00 ∧ State.reset.memRead 0x821 = some 0x00 ∧
    State.reset.memRead 0x822 = some 0x01

/-! ### Invariants -/

/-- Every step, from any state that has the invariants of R39, leaves a state that has them. -/
def Obligations.StepKeepsInvariants : Prop :=
  ∀ s t : State, s.Inv → step s = .next t → t.Inv

/-- The invariants of R39 hold right after reset. -/
def Obligations.ResetHasInvariants : Prop := State.reset.Inv

/-- Every step, from any state with the invariants of R39, keeps the meaningful data registers
written: bytes received, the fields and decoded bytes of Ok packets, times of completed packets, and
bytes of the assembled frame (U2). The marks are the model's own (log entry 3). -/
def Obligations.StepKeepsMeaningfulRegistersWritten : Prop :=
  ∀ s t : State, s.Inv → s.Written → step s = .next t → t.Written

/-- No register is meaningful right after reset, so all meaningful ones are written. The marks are the
model's own (log entry 3). -/
def Obligations.ResetHasMeaningfulRegistersWritten : Prop := State.reset.Written

/-- What the Written invariant is for: where it and the invariants of R39 hold, reads of the meaningful
bytes of an Ok slot are specified: offsets 0x30 to 0x3F (length to time), the raw bytes below `length`
and the decoded bytes below `length/2`. Nothing is said of the raw and decoded bytes above those,
which may be unspecified. What is specified is decided by the model's own marks (log entry 3). -/
def Obligations.OkSlotMeaningfulReadsAreSpecified : Prop :=
  ∀ (s : State) (k : Fin config.nSlots) (off : Nat), s.Inv → s.Written → (s.slot k).isOk = true →
    (0x30 ≤ off ∧ off < 0x40) ∨ (off < (s.slot k).packet.length.toNat) ∨
      (0x20 ≤ off ∧ off < 0x20 + (s.slot k).packet.length.toNat / 2) →
      ∃ b, s.memRead (BitVec.ofNat 12 (0x40 * k.val + off)) = some b

/-- Health changes (R151): without `rst`, a step writes Ok or Bad only in the packet it completes,
which was NotChecked, and otherwise leaves the health or returns it to NotChecked. -/
def Obligations.HealthIsDecidedOncePerPacket : Prop :=
  ∀ (s t : State) (k : Fin config.nSlots), s.Inv → s.inputs.head? ≠ some .rst → step s = .next t →
    (t.slot k).health = (s.slot k).health ∨ (t.slot k).health = .notChecked ∨
      (k = s.current ∧ (s.slot k).health = .notChecked ∧ t.notified = true ∧
        t.current = nextSlot s.current ∧ (t.slot k).timecode = .stored s.timeIn)

/-! ### NOP and the receive commands -/

/-- `NOP` (R211): the word 0x0000; on either port no register changes and the response is 0x00. On
port C in data-word mode that word is the payload byte 0x00 instead. -/
def Obligations.NopOnlyResponds : Prop :=
  decode 0x0000 = .ok .nop ∧
    (∀ s : State, exec .nop s = .next { s with response := some 0x00 }) ∧
    ∀ (s : State) (rest : List Input), s.inputs = .word .c 0x0000 :: rest → s.asm.active = true →
      ∃ t, step s = .next t ∧ t.response = some 0x00 ∧ t.rxSide = s.rxSide ∧
        t.txSide =
          if s.asm.buf.length + 1 = s.asm.n.toNat then
            (s.tx.assemble (s.asm.buf ++ [0x00]) s.asm.c,
              { s.asm with active := false, buf := [] })
          else (s.tx, { s.asm with buf := s.asm.buf ++ [0x00] })

/-- `RXB b` before the last byte of a frame (R192): the byte is stored at the cursor of the current
slot and the cursor advances; nothing else changes and the response is 0x00. -/
def Obligations.RxbStoresByteMidFrame : Prop :=
  ∀ (b : Byte) (s : State), s.port = .p →
    s.cur.packet.cursor.toNat + 1 < s.cur.packet.length.toNat →
    ∃ sl : Slot, exec (.rxb b) s = .next { s with
        slots := s.slots.set s.current.val sl s.current.isLt, response := some 0x00 } ∧
      sl = { s.cur with packet := sl.packet } ∧
      sl.packet.length = s.cur.packet.length ∧
      sl.packet.cursor.toNat = s.cur.packet.cursor.toNat + 1 ∧
      ∀ i : Fin config.capacity, sl.packet.bytes[i] =
        if i.val = s.cur.packet.cursor.toNat then ⟨b, true⟩ else s.cur.packet.bytes[i]

/-- `RXB b` with the last byte of a frame (R191, R192, R152): the byte is stored, the packet becomes
done with its time captured, `current` advances modulo the pool size, the new current slot is reset
for the type last told with its data registers kept, and the response is 0x01. Nothing else changes
but the completed slot's `payload`, `id` and `watts`, which this statement leaves open:
`InvalidSymbolMakesPacketBad`, `ChecksumMismatchMakesPacketBad` and `GoodFrameMakesPacketOk` give
them for each outcome of the pipeline. -/
def Obligations.RxbCompletesAndRotates : Prop :=
  ∀ (b : Byte) (s : State), s.port = .p →
    s.cur.packet.cursor.toNat + 1 = s.cur.packet.length.toNat →
    ∃ (k : Fin config.nSlots) (sl new : Slot),
      k.val = (s.current.val + 1) % config.nSlots ∧
      exec (.rxb b) s = .next { s with
        slots := (s.slots.set s.current.val sl s.current.isLt).set k.val new k.isLt
        current := k, response := some 0x01 } ∧
      sl.packet.length = s.cur.packet.length ∧ sl.packet.cursor = s.cur.packet.length ∧
      (∀ i : Fin config.capacity, sl.packet.bytes[i] =
        if i.val = s.cur.packet.cursor.toNat then ⟨b, true⟩ else s.cur.packet.bytes[i]) ∧
      sl.txType = s.cur.txType ∧ sl.timecode = ⟨s.timeIn, true⟩ ∧
      (sl.health = .ok ∨ sl.health = .bad) ∧
      new = { s.slot k with
        packet := { (s.slot k).packet with
          cursor := 0, length := BitVec.ofNat 8 (config.len s.rxTypeSel) }
        health := .notChecked, txType := s.rxTypeSel }

/-- E1, an encoding error (R147, R222): a completing `RXB` whose frame has an invalid symbol anywhere
leaves the packet Bad with the decoded bytes, the identifier and the readings as they were, and the
pool moves on to the next slot, which is reset (R142). -/
def Obligations.InvalidSymbolMakesPacketBad : Prop :=
  ∀ (b : Byte) (s : State), s.Inv → s.port = .p →
    s.cur.packet.cursor.toNat + 1 = s.cur.packet.length.toNat →
    (∃ e ∈ s.cur.frameWith b, validRaw e = false) →
    ∃ t, exec (.rxb b) s = .next t ∧ t.response = some 0x01 ∧ t.current = nextSlot s.current ∧
      (t.slot s.current).health = .bad ∧
      (t.slot s.current).payload = s.cur.payload ∧ (t.slot s.current).id = s.cur.id ∧
      (t.slot s.current).watts = s.cur.watts ∧ (t.slot s.current).timecode = ⟨s.timeIn, true⟩ ∧
      t.slot t.current = (s.slot (nextSlot s.current)).rxReset s.rxTypeSel

/-- E2, an integrity error (R148, R223): a completing `RXB` whose frame has valid symbols and a wrong
checksum leaves the packet Bad with exactly the first half-length decoded bytes written, and the
identifier and the readings as they were, and the pool moves on to the next slot, which is reset. -/
def Obligations.ChecksumMismatchMakesPacketBad : Prop :=
  ∀ (b : Byte) (s : State), s.Inv → s.port = .p →
    s.cur.packet.cursor.toNat + 1 = s.cur.packet.length.toNat →
    frameValid (s.cur.frameWith b) = true → checksumOk (decodeFrame (s.cur.frameWith b)) = false →
    ∃ t, exec (.rxb b) s = .next t ∧ t.response = some 0x01 ∧ t.current = nextSlot s.current ∧
      (t.slot s.current).health = .bad ∧
      (∀ j : Fin config.dcap, (t.slot s.current).payload[j] =
        if j.val < s.cur.packet.length.toNat / 2 then
          ⟨(decodeFrame (s.cur.frameWith b)).getD j.val 0, true⟩
        else s.cur.payload[j]) ∧
      (t.slot s.current).id = s.cur.id ∧ (t.slot s.current).watts = s.cur.watts ∧
      (t.slot s.current).timecode = ⟨s.timeIn, true⟩ ∧
      t.slot t.current = (s.slot (nextSlot s.current)).rxReset s.rxTypeSel

/-- A good frame (R146, R149, R150): a completing `RXB` whose frame has valid symbols and a matching
checksum leaves the packet Ok with the decoded bytes written, the identifier and all three readings
extracted by the layout of its type, a channel the layout lacks reading 0, and the pool moves on to
the next slot, which is reset. -/
def Obligations.GoodFrameMakesPacketOk : Prop :=
  ∀ (b : Byte) (s : State), s.Inv → s.port = .p →
    s.cur.packet.cursor.toNat + 1 = s.cur.packet.length.toNat →
    frameValid (s.cur.frameWith b) = true → checksumOk (decodeFrame (s.cur.frameWith b)) = true →
    ∃ t, exec (.rxb b) s = .next t ∧ t.response = some 0x01 ∧ t.current = nextSlot s.current ∧
      (t.slot s.current).health = .ok ∧
      (∀ j : Fin config.dcap, (t.slot s.current).payload[j] =
        if j.val < s.cur.packet.length.toNat / 2 then
          ⟨(decodeFrame (s.cur.frameWith b)).getD j.val 0, true⟩
        else s.cur.payload[j]) ∧
      (t.slot s.current).id =
        ⟨fieldAt (decodeFrame (s.cur.frameWith b)) (config.layout s.cur.txType).idOff, true⟩ ∧
      (∀ c : Fin 3, (t.slot s.current).watts[c] =
        ⟨wattAt s.cur.txType (decodeFrame (s.cur.frameWith b)) c.val, true⟩) ∧
      (t.slot s.current).timecode = ⟨s.timeIn, true⟩ ∧
      t.slot t.current = (s.slot (nextSlot s.current)).rxReset s.rxTypeSel

/-- `RXB` is always accepted (R193, R192 corner cases): in every state with the invariants of R39 it
stores its byte in the current slot, whatever the byte and whether or not any slot has been read. -/
def Obligations.RxbAlwaysStoresItsByte : Prop :=
  ∀ (b : Byte) (s : State), s.Inv → s.port = .p →
    ∃ t, exec (.rxb b) s = .next t ∧
      (t.slot s.current).packet.byteAt s.cur.packet.cursor.toNat = b ∧
      (t.slot s.current).packet.cursor.toNat = s.cur.packet.cursor.toNat + 1 ∧
      (t.response = some 0x00 ∨ t.response = some 0x01)

/-- `RXB` on a current slot that has no room (R122, R143, C7): nothing is stored, nothing is decoded
again and the response is 0x00. By R39 item 4 no command sequence leads to such a slot. -/
def Obligations.RxbOnAFullSlotIsNoOp : Prop :=
  ∀ (b : Byte) (s : State), s.port = .p →
    s.cur.packet.length.toNat ≤ s.cur.packet.cursor.toNat →
    exec (.rxb b) s = .next { s with response := some 0x00 }

/-- `RXTYPE t` (R196): `rx_type_sel` takes the type; the current slot takes the type and its length
too when it is empty, and keeps both when it holds bytes. Nothing else changes, response 0x00. -/
def Obligations.RxtypeTellsTheType : Prop :=
  ∀ (t : TxType) (s : State), s.port = .p →
    exec (.rxtype t) s = .next (
      if s.cur.packet.cursor = 0 then
        { s with
          rxTypeSel := t, response := some 0x00
          slots := s.slots.set s.current.val { s.cur with
            txType := t
            packet := { s.cur.packet with length := BitVec.ofNat 8 (config.len t) } } s.current.isLt }
      else { s with rxTypeSel := t, response := some 0x00 })

/-- `RXRST` (R197, R142): the current slot is emptied, NotChecked, and reloads its type and length
from `rx_type_sel`; its data registers, `current` and everything else stay. Response 0x00. The flags
of the slot are 0 before it, in a state with the invariants, and 0 after it. -/
def Obligations.RxrstEmptiesTheCurrentSlot : Prop :=
  decode 0x3000 = .ok .rxrst ∧ ∀ s : State, s.port = .p →
    let sl : Slot := { s.cur with
      packet := { s.cur.packet with
        cursor := 0, length := BitVec.ofNat 8 (config.len s.rxTypeSel) }
      health := .notChecked, txType := s.rxTypeSel }
    exec .rxrst s = .next { s with
      response := some 0x00, slots := s.slots.set s.current.val sl s.current.isLt } ∧
    (sl.isDone = false ∧ sl.isOk = false ∧ sl.isPairing = false) ∧
    (s.Inv → s.cur.isDone = false ∧ s.cur.isOk = false ∧ s.cur.isPairing = false)

/-! ### The read command -/

/-- `RD` of a slot's window (R63, R210): each address returns the byte its row of the table names,
little-endian for the wide registers, an unspecified byte (U2) where the register is not written, as
the model's marks and free values say (log entries 2 and 3), and no register of the block changes. -/
def Obligations.RdReadsSlotWindow : Prop :=
  ∀ (s : State) (k : Fin config.nSlots), s.port = .c →
    let sl := s.slot k
    let answers (off : Nat) (b : Byte) : Prop :=
      exec (.rd (BitVec.ofNat 12 (0x40 * k.val + off))) s = .next { s with response := some b }
    let answersReg (off : Nat) (written : Bool) (b : Byte) : Prop :=
      exec (.rd (BitVec.ofNat 12 (0x40 * k.val + off))) s = .next (
        if written then { s with response := some b }
        else { s with
          response := some (Config.freeByte s.freeCount), freeCount := s.freeCount + 1 })
    (∀ i : Fin config.capacity, answersReg i.val sl.packet.bytes[i].written sl.packet.bytes[i].value) ∧
    (∀ j : Fin config.dcap, answersReg (0x20 + j.val) sl.payload[j].written sl.payload[j].value) ∧
    answers 0x30 sl.packet.length ∧ answers 0x31 sl.packet.cursor ∧
    answers 0x32 (match sl.health with | .notChecked => 0x00 | .ok => 0x01 | .bad => 0x02) ∧
    answers 0x33 sl.status ∧
    answersReg 0x34 sl.id.written (sl.id.value.extractLsb' 0 8) ∧
    answersReg 0x35 sl.id.written (sl.id.value.extractLsb' 8 8) ∧
    (∀ c : Fin 3, answersReg (0x36 + 2 * c.val) sl.watts[c].written (sl.watts[c].value.extractLsb' 0 8) ∧
      answersReg (0x37 + 2 * c.val) sl.watts[c].written (sl.watts[c].value.extractLsb' 8 8)) ∧
    ∀ m : Fin 4, answersReg (0x3C + m.val) sl.timecode.written
      (sl.timecode.value.extractLsb' (8 * m.val) 8)

/-- `RD` of the TX window and of the global window (R64, R65, R210): each address returns the byte its
row names, reserved ones 0x00, an unspecified byte (U2) where no frame byte is written yet, as the
model's marks and free values say (log entries 2 and 3), and no register of the block changes. -/
def Obligations.RdReadsTxAndGlobalWindows : Prop :=
  ∀ s : State, s.port = .c →
    let answers (a : Nat) (b : Byte) : Prop :=
      exec (.rd (BitVec.ofNat 12 a)) s = .next { s with response := some b }
    (∀ i : Fin config.capacity, exec (.rd (BitVec.ofNat 12 (0x800 + i.val))) s = .next (
      if s.tx.bytes[i].written then { s with response := some s.tx.bytes[i].value }
      else { s with
        response := some (Config.freeByte s.freeCount), freeCount := s.freeCount + 1 })) ∧
    answers 0x820 s.tx.length ∧ answers 0x821 s.tx.cursor ∧
    answers 0x822 (if s.tx.cursor = s.tx.length then 0x01 else 0x00) ∧
    answers 0x840 (BitVec.ofNat 8 s.current.val) ∧
    answers 0x841 (match s.rxTypeSel with | .txOnly => 0x00 | .trx => 0x01) ∧
    answers 0x842 5 ∧ answers 0x843 32 ∧ answers 0x844 20 ∧ answers 0x845 12 ∧
    answers 0x846 0x50 ∧
    ∀ a, (0x823 ≤ a ∧ a < 0x840) ∨ (0x847 ≤ a ∧ a < 0x880) → answers a 0x00

/-- `RD` of an address no row names returns 0x00 and changes nothing (R66). -/
def Obligations.RdOfUnmappedAddressReadsZero : Prop :=
  ∀ (s : State) (a : BitVec 12), s.port = .c →
    (0x40 * config.nSlots ≤ a.toNat ∧ a.toNat < 0x800) ∨ (0x823 ≤ a.toNat ∧ a.toNat < 0x840) ∨
      0x847 ≤ a.toNat →
    exec (.rd a) s = .next { s with response := some 0x00 }

/-- The STATUS byte bit by bit (R38, R63): bit 0 DONE, bit 1 OK, bit 2 PAIRING, bit 4 the type, the
others zero. -/
def Obligations.StatusByteHoldsTheFlags : Prop :=
  ∀ sl : Slot,
    (sl.status.getLsbD 0 = true ↔ sl.packet.cursor = sl.packet.length) ∧
    (sl.status.getLsbD 1 = true ↔ sl.health = .ok) ∧
    (sl.status.getLsbD 2 = true ↔ sl.health = .ok ∧ sl.payload[0].value = config.pairMarker) ∧
    (sl.status.getLsbD 4 = true ↔ sl.txType = .trx) ∧
    sl.status.getLsbD 3 = false ∧ sl.status.getLsbD 5 = false ∧ sl.status.getLsbD 6 = false ∧
    sl.status.getLsbD 7 = false

/-! ### The transmit commands -/

/-- `TXASM c, n` (R172): with no data words to come it assembles the frame of the empty payload at
once; otherwise it starts the collector and leaves the TX packet. Response 0x00, nothing else
changes. -/
def Obligations.TxasmHeaderStartsAssembly : Prop :=
  ∀ (c : Bool) (n : Byte) (s : State), s.port = .c →
    exec (.txasm c n) s = .next (
      if n = 0 then { s with tx := s.tx.assemble [] c, response := some 0x00 }
      else { s with
        asm := { active := true, c := c, n := n, buf := [] }, response := some 0x00 })

/-- `Tx.assemble` (R171, R173, R175): the frame is preamble, sync word, payload, the checksum of the
payload when asked for, and tail; its first CAPACITY bytes are stored, the length is the number
stored, the bytes above it stay, and the cursor is 0. -/
def Obligations.AssembleStoresTheFrame : Prop :=
  ∀ (tx : Packet) (payload : List Byte) (c : Bool),
    let f := config.preamble ++ config.sync ++ payload ++
      (if c then [modularSum payload] else []) ++ config.tail
    (tx.assemble payload c).length.toNat = min f.length config.capacity ∧
      (tx.assemble payload c).cursor = 0 ∧
      ∀ i : Fin config.capacity, (tx.assemble payload c).bytes[i] =
        if i.val < f.length then ⟨f.getD i.val 0, true⟩ else tx.bytes[i]

/-- A whole `TXASM` is one atomic operation under every interleaving (R101, R172, R71): whatever port
P does and however `time_in` moves between its words, once the last data word is taken the TX packet
holds the assembly of the payload, the low bytes of the data words, and port C takes commands
again. -/
def Obligations.TxasmIsAtomicUnderInterleaving : Prop :=
  ∀ (s : State) (ins : List Input) (c : Bool) (n : Byte) (ds : List Word),
    s.asm.active = false → Input.rst ∉ ins → ds.length = n.toNat →
    ins.filterMap (Input.wordOn .c) = encode (.txasm c n) :: ds →
    ∃ t, s.runInputs ins = some t ∧ t.asm.active = false ∧
      t.tx = s.tx.assemble (ds.map fun d => d.extractLsb' 0 8) c

/-- Until its last data word is taken a `TXASM` leaves the TX packet as it was, and every port C word
meanwhile is data (R101, R172). -/
def Obligations.UnfinishedTxasmLeavesTxPacket : Prop :=
  ∀ (s : State) (ins : List Input) (c : Bool) (n : Byte) (ds : List Word),
    s.asm.active = false → Input.rst ∉ ins → ds.length < n.toNat →
    ins.filterMap (Input.wordOn .c) = encode (.txasm c n) :: ds →
    ∃ t, s.runInputs ins = some t ∧ t.tx = s.tx ∧
      t.asm = { active := true, c := c, n := n, buf := ds.map fun d => d.extractLsb' 0 8 }

/-- `TXNEXT` with bytes left (R180): the response is the byte at the cursor, the cursor advances, and
nothing else changes; `TXDONE` becomes 1 exactly when that byte was the last. -/
def Obligations.TxnextEmitsTheNextByte : Prop :=
  decode 0x6000 = .ok .txnext ∧ ∀ s : State, s.tx.Inv → s.port = .c → s.tx.cursor.toNat < s.tx.length.toNat →
    ∃ tx : Packet, ∃ r : Reg 8, exec .txnext s = .next { s with tx := tx, response := some r.value } ∧
      s.tx.bytes[s.tx.cursor.toNat]? = some r ∧ tx.bytes = s.tx.bytes ∧ tx.length = s.tx.length ∧
      tx.cursor.toNat = s.tx.cursor.toNat + 1 ∧
      (tx.done = true ↔ s.tx.cursor.toNat + 1 = s.tx.length.toNat)

/-- `TXNEXT` on a drained packet (R181, U1): no register of the block changes and the response is an
unspecified byte. That the command goes on and answers the next free value, which advances the model's
counter, is the model's choice among those U1 allows (log entry 2). -/
def Obligations.TxnextOnDrainedPacketChangesNothing : Prop :=
  ∀ s : State, s.port = .c → s.tx.cursor = s.tx.length →
    exec .txnext s = .next { s with
      response := some (Config.freeByte s.freeCount), freeCount := s.freeCount + 1 }

/-- `TXRST` (R182): the TX packet is rewound and keeps its bytes and length; response 0x00, nothing
else changes. `TXDONE` becomes 1 exactly on the empty packet. -/
def Obligations.TxrstRewindsTheTxPacket : Prop :=
  decode 0x7000 = .ok .txrst ∧ ∀ s : State, s.port = .c →
    exec .txrst s = .next { s with tx := { s.tx with cursor := 0 }, response := some 0x00 } ∧
      (Packet.done { s.tx with cursor := 0 } = true ↔ s.tx.length = 0)

/-- Draining (R170, R180): from any state with port C out of data-word mode, as many `TXNEXT` as bytes
are left return exactly those bytes in order and leave the packet done. -/
def Obligations.DrainEmitsTheRemainingBytes : Prop :=
  ∀ s : State, s.tx.Inv → s.asm.active = false →
    let n := s.tx.length.toNat - s.tx.cursor.toNat
    s.responses (drain n) =
        (List.range n).map (fun i => some (s.tx.byteAt (s.tx.cursor.toNat + i))) ∧
      ∃ t, s.runInputs (drain n) = some t ∧ t.tx = { s.tx with cursor := s.tx.length }

/-! ### Primitives -/

/-- `modularSum` is the sum of the bytes modulo 256 (R126), 0 for no bytes, and does not depend on
their order. -/
def Obligations.ModularSumIsSumMod256 : Prop :=
  modularSum [] = 0 ∧ ∀ bs : List Byte, (modularSum bs).toNat = (bs.map BitVec.toNat).sum % 256 ∧
    ∀ cs : List Byte, bs.Perm cs → modularSum bs = modularSum cs

/-- `Pkt.append` and `Pkt.appendN` (R122, R123): however many bytes are appended, those that fit below
`length` are stored in order from the cursor, the rest are dropped, and no byte at or above `length`
and no byte below the cursor changes. -/
def Obligations.AppendStoresWhatFits : Prop :=
  ∀ (p : Packet) (bs : List Byte), p.Inv →
    let r := p.length.toNat - p.cursor.toNat
    (p.appendN bs).length = p.length ∧
      (p.appendN bs).cursor.toNat = p.cursor.toNat + min bs.length r ∧
      ∀ i : Fin config.capacity, (p.appendN bs).bytes[i] =
        if p.cursor.toNat ≤ i.val ∧ i.val < p.cursor.toNat + min bs.length r then
          ⟨bs.getD (i.val - p.cursor.toNat) 0, true⟩
        else p.bytes[i]

/-- Symbols and nibbles (R144): a raw byte is valid exactly when the two bits of each of its four
symbols differ, its nibble is made of the more significant bits of the symbols for `MANCH_ONE` = 0b10
and of the others for 0b01; the sixteen bytes of the rule's table are valid and stand for their nibbles,
and no other byte is valid. -/
def Obligations.RawByteIsFourSymbols : Prop :=
  (∀ e : Byte,
    (validRaw e = true ↔ ∀ i : Fin 4, e.getLsbD (2 * i.val + 1) ≠ e.getLsbD (2 * i.val)) ∧
    ∀ i : Fin 4, (nibble .sym10 e).getLsbD i.val = e.getLsbD (2 * i.val + 1) ∧
      (nibble .sym01 e).getLsbD i.val = e.getLsbD (2 * i.val)) ∧
    (∀ r ∈ [((0x0 : BitVec 4), (0x55 : Byte)), (0x1, 0x56), (0x2, 0x59), (0x3, 0x5A), (0x4, 0x65),
        (0x5, 0x66), (0x6, 0x69), (0x7, 0x6A), (0x8, 0x95), (0x9, 0x96), (0xA, 0x99), (0xB, 0x9A),
        (0xC, 0xA5), (0xD, 0xA6), (0xE, 0xA9), (0xF, 0xAA)],
      validRaw r.2 = true ∧ nibble .sym10 r.2 = r.1) ∧
    ((List.range 256).filter fun n => validRaw (BitVec.ofNat 8 n)).length = 16

/-- The laws of the reference encoder (R156): what it encodes is valid and decodes back, for both
polarities. -/
def Obligations.DecoderInvertsReferenceEncoder : Prop :=
  ∀ (one : ManchOne) (d : Byte), ∃ hi lo, encByte one d = [hi, lo] ∧
    validRaw hi = true ∧ validRaw lo = true ∧ decodePair one hi lo = d

/-! ### Whole frames -/

/-- Receiving a frame (R140, R143, R146, R192): from any state with the invariants and an empty
current slot, the raw bytes of one frame of that slot's length, whatever they are, answer 0x00 each
but the last, which answers 0x01; the slot then holds them, done, with health Ok exactly when every
symbol is valid and the checksum matches, Bad otherwise, and the pool has moved to the next slot. -/
def Obligations.FrameIsReceivedAndJudged : Prop :=
  ∀ (s : State) (raw : List Byte), s.Inv → s.cur.packet.cursor = 0 →
    raw.length = s.cur.packet.length.toNat →
    s.responses (rxFrame raw) = List.replicate (raw.length - 1) (some 0x00) ++ [some 0x01] ∧
      ∃ t, s.runInputs (rxFrame raw) = some t ∧ t.current = nextSlot s.current ∧
        (t.slot s.current).packet.done = true ∧
        (∀ i : Fin config.capacity, (t.slot s.current).packet.bytes[i] =
          if i.val < raw.length then ⟨raw.getD i.val 0, true⟩ else s.cur.packet.bytes[i]) ∧
        (t.slot s.current).health =
          (if frameValid raw && checksumOk (decodeFrame raw) then .ok else .bad) ∧
        (t.slot s.current).timecode = ⟨s.timeIn, true⟩ ∧
        t.txSide = s.txSide

/-- No false negatives, one bit (R157 b): a Manchester-valid frame with any single one of its bits
inverted ends Bad, with the decoded bytes, the identifier and the readings untouched. -/
def Obligations.SingleBitErrorIsCaught : Prop :=
  ∀ (s : State) (raw : List Byte) (i b : Nat), s.Inv → s.cur.packet.cursor = 0 →
    raw.length = s.cur.packet.length.toNat → frameValid raw = true → i < raw.length → b < 8 →
    ∃ t, s.runInputs (rxFrame (raw.set i (raw.getD i 0 ^^^ ((1 : Byte) <<< b)))) = some t ∧
      (t.slot s.current).health = .bad ∧ (t.slot s.current).payload = s.cur.payload ∧
      (t.slot s.current).id = s.cur.id ∧ (t.slot s.current).watts = s.cur.watts

/-- An inverted symbol (R157 c): a good frame with both bits of any single symbol inverted is still
Manchester-valid, and the checksum catches it: the packet ends Bad with the identifier and the
readings untouched. -/
def Obligations.InvertedSymbolIsCaught : Prop :=
  ∀ (s : State) (raw : List Byte) (i m : Nat), s.Inv → s.cur.packet.cursor = 0 →
    raw.length = s.cur.packet.length.toNat → frameValid raw = true →
    checksumOk (decodeFrame raw) = true → i < raw.length → m < 4 →
    let bad := raw.set i (raw.getD i 0 ^^^ ((3 : Byte) <<< (2 * m)))
    frameValid bad = true ∧ ∃ t, s.runInputs (rxFrame bad) = some t ∧
      (t.slot s.current).health = .bad ∧ (t.slot s.current).id = s.cur.id ∧
      (t.slot s.current).watts = s.cur.watts

/-- Round trip (R183): a payload of the length of type `ty`, assembled with a checksum and drained
from port C, stripped of preamble, sync word and tail, Manchester encoded outside the block and
received into an empty slot of that type, ends Ok with the payload bytes and the fields laid out in
them. -/
def Obligations.TransmittedPayloadIsReceivedBack : Prop :=
  ∀ (s : State) (ty : TxType) (payload : List Byte), s.Inv → s.asm.active = false →
    s.cur.packet.cursor = 0 → s.cur.txType = ty → payload.length + 1 = config.dlen ty →
    ∃ t1 t2 t3 : State,
      s.runInputs (Command.present
        { port := .c, instr := .txasm true (BitVec.ofNat 8 payload.length), payload := payload })
          = some t1 ∧
      t1.runInputs (drain t1.tx.length.toNat) = some t2 ∧ t2.tx.done = true ∧
      t2.runInputs (rxFrame (encBytes config.manchOne
        ((((t1.responses (drain t1.tx.length.toNat)).filterMap fun r => r).drop
          (config.preamble.length + config.sync.length)).take (config.dlen ty)))) = some t3 ∧
      (t3.slot s.current).health = .ok ∧
      (∀ j : Fin config.dcap, j.val < payload.length →
        (t3.slot s.current).payload[j] = ⟨payload.getD j.val 0, true⟩) ∧
      (t3.slot s.current).id = ⟨fieldAt payload (config.layout ty).idOff, true⟩ ∧
      ∀ c : Fin 3, (t3.slot s.current).watts[c] = ⟨wattAt ty payload c.val, true⟩

/-! ### The two contexts and the pool -/

/-- The single-writer split, one step (R40, R231): without `rst`, a step whose word comes on port P
changes nothing on the transmit side, and a step whose word comes on port C changes nothing on the
receive side. -/
def Obligations.EachPortWritesOnlyItsSide : Prop :=
  ∀ (s t : State) (q : Port) (w : Word) (rest : List Input),
    s.inputs = .word q w :: rest → step s = .next t →
      (q = .p → t.txSide = s.txSide) ∧ (q = .c → t.rxSide = s.rxSide)

/-- The receive side does not depend on port C (R40, R71): for every interleaving of inputs, dropping
every port C word leaves the pool, `current` and `rx_type_sel` the same at the end. -/
def Obligations.ReceiveSideIgnoresPortC : Prop :=
  ∀ (s : State) (ins : List Input), ∃ t u,
    s.runInputs ins = some t ∧ s.runInputs (ins.filter fun i => !i.onPort .c) = some u ∧
      t.rxSide = u.rxSide

/-- The transmit side does not depend on port P (R40, R71): for every interleaving of inputs, dropping
every port P word leaves the TX packet and the collector the same at the end. -/
def Obligations.TransmitSideIgnoresPortP : Prop :=
  ∀ (s : State) (ins : List Input), ∃ t u,
    s.runInputs ins = some t ∧ s.runInputs (ins.filter fun i => !i.onPort .p) = some u ∧
      t.txSide = u.txSide

/-- Retention (R194 a): a slot that is `d` rotations ahead of the current one is untouched, data and
control registers alike, by every run without `rst` that completes fewer than `d` packets. A slot
that has just completed is `N_SLOTS - 1` rotations ahead. -/
def Obligations.SlotIsKeptUntilThePoolWraps : Prop :=
  ∀ (s t : State) (ins : List Input) (k : Fin config.nSlots),
    Input.rst ∉ ins → s.completions ins < s.distance k → s.runInputs ins = some t →
      t.slot k = s.slot k

/-- Which slots a step writes (R190): without `rst`, a step changes no slot but the current one and,
when it completes a packet, the one after it. -/
def Obligations.StepWritesOnlyCurrentAndNextSlot : Prop :=
  ∀ (s t : State) (k : Fin config.nSlots), s.inputs.head? ≠ some .rst → step s = .next t →
    t.slot k = s.slot k ∨ k = s.current ∨ (k = nextSlot s.current ∧ t.notified = true)
end

