-- ==== Sys2Proof/Laws/State.lean ====
section
/-! SUPPORT. One lemma per field per update of the state: what each named operation of
Machine/Ops.lean leaves and writes, so that no proof unfolds a record update. -/

namespace Sys2Proof.Machine

/-! ### Data registers -/

@[simp] theorem Reg.reset_value {w : Nat} : (Reg.reset : Reg w).value = 0 := rfl
@[simp] theorem Reg.reset_written {w : Nat} : (Reg.reset : Reg w).written = false := rfl
@[simp] theorem Reg.stored_value {w : Nat} (v : BitVec w) : (Reg.stored v).value = v := rfl
@[simp] theorem Reg.stored_written {w : Nat} (v : BitVec w) : (Reg.stored v).written = true := rfl

/-! ### Packet records -/

@[simp] theorem Packet.rewind_bytes (p : Packet) : p.rewind.bytes = p.bytes := rfl
@[simp] theorem Packet.rewind_length (p : Packet) : p.rewind.length = p.length := rfl
@[simp] theorem Packet.rewind_cursor (p : Packet) : p.rewind.cursor = 0 := rfl
@[simp] theorem Packet.setLength_bytes (p : Packet) (n : Nat) : (p.setLength n).bytes = p.bytes := rfl
@[simp] theorem Packet.setLength_length (p : Packet) (n : Nat) :
    (p.setLength n).length = BitVec.ofNat 8 (min n config.capacity) := rfl
@[simp] theorem Packet.setLength_cursor (p : Packet) (n : Nat) : (p.setLength n).cursor = p.cursor := rfl
@[simp] theorem Packet.atReset_length (n : Nat) : (Packet.atReset n).length = BitVec.ofNat 8 n := rfl
@[simp] theorem Packet.atReset_cursor (n : Nat) : (Packet.atReset n).cursor = 0 := rfl

@[simp] theorem Packet.advance_bytes (p : Packet) : p.advance.bytes = p.bytes := rfl
@[simp] theorem Packet.advance_length (p : Packet) : p.advance.length = p.length := rfl
@[simp] theorem Packet.advance_cursor (p : Packet) : p.advance.cursor = p.cursor + 1 := rfl

/-! ### Slots -/

@[simp] theorem Slot.store_packet (sl : Slot) (b : Byte) : (sl.store b).packet = sl.packet.append b := rfl
@[simp] theorem Slot.store_health (sl : Slot) (b : Byte) : (sl.store b).health = sl.health := rfl
@[simp] theorem Slot.store_txType (sl : Slot) (b : Byte) : (sl.store b).txType = sl.txType := rfl
@[simp] theorem Slot.store_payload (sl : Slot) (b : Byte) : (sl.store b).payload = sl.payload := rfl
@[simp] theorem Slot.store_id (sl : Slot) (b : Byte) : (sl.store b).id = sl.id := rfl
@[simp] theorem Slot.store_watts (sl : Slot) (b : Byte) : (sl.store b).watts = sl.watts := rfl
@[simp] theorem Slot.store_timecode (sl : Slot) (b : Byte) : (sl.store b).timecode = sl.timecode := rfl

@[simp] theorem Slot.retype_packet (sl : Slot) (t : TxType) :
    (sl.retype t).packet = sl.packet.setLength (config.len t) := rfl
@[simp] theorem Slot.retype_health (sl : Slot) (t : TxType) : (sl.retype t).health = sl.health := rfl
@[simp] theorem Slot.retype_txType (sl : Slot) (t : TxType) : (sl.retype t).txType = t := rfl
@[simp] theorem Slot.retype_payload (sl : Slot) (t : TxType) : (sl.retype t).payload = sl.payload := rfl
@[simp] theorem Slot.retype_id (sl : Slot) (t : TxType) : (sl.retype t).id = sl.id := rfl
@[simp] theorem Slot.retype_watts (sl : Slot) (t : TxType) : (sl.retype t).watts = sl.watts := rfl
@[simp] theorem Slot.retype_timecode (sl : Slot) (t : TxType) : (sl.retype t).timecode = sl.timecode := rfl

@[simp] theorem Slot.deManchesterise_packet (sl : Slot) : sl.deManchesterise.packet = sl.packet := rfl
@[simp] theorem Slot.deManchesterise_txType (sl : Slot) : sl.deManchesterise.txType = sl.txType := rfl
@[simp] theorem Slot.deManchesterise_id (sl : Slot) : sl.deManchesterise.id = sl.id := rfl
@[simp] theorem Slot.deManchesterise_watts (sl : Slot) : sl.deManchesterise.watts = sl.watts := rfl
@[simp] theorem Slot.decodeId_packet (sl : Slot) : sl.decodeId.packet = sl.packet := rfl
@[simp] theorem Slot.decodeId_txType (sl : Slot) : sl.decodeId.txType = sl.txType := rfl
@[simp] theorem Slot.decodeId_payload (sl : Slot) : sl.decodeId.payload = sl.payload := rfl
@[simp] theorem Slot.decodeId_watts (sl : Slot) : sl.decodeId.watts = sl.watts := rfl
@[simp] theorem Slot.decodeId_id (sl : Slot) :
    sl.decodeId.id = .stored (sl.field16 (config.layout sl.txType).idOff) := rfl
@[simp] theorem Slot.decodeWattage_packet (sl : Slot) : sl.decodeWattage.packet = sl.packet := rfl
@[simp] theorem Slot.decodeWattage_txType (sl : Slot) : sl.decodeWattage.txType = sl.txType := rfl
@[simp] theorem Slot.decodeWattage_payload (sl : Slot) : sl.decodeWattage.payload = sl.payload := rfl
@[simp] theorem Slot.decodeWattage_id (sl : Slot) : sl.decodeWattage.id = sl.id := rfl
theorem Slot.decodeWattage_watts (sl : Slot) (c : Fin 3) :
    sl.decodeWattage.watts[c] = .stored (sl.wattReading c.val) := by
  fin_cases c <;> rfl

@[simp] theorem Slot.rxReset_packet (sl : Slot) (t : TxType) :
    (sl.rxReset t).packet = sl.packet.rewind.setLength (config.len t) := rfl
@[simp] theorem Slot.rxReset_health (sl : Slot) (t : TxType) : (sl.rxReset t).health = .notChecked := rfl
@[simp] theorem Slot.rxReset_txType (sl : Slot) (t : TxType) : (sl.rxReset t).txType = t := rfl
@[simp] theorem Slot.rxReset_payload (sl : Slot) (t : TxType) : (sl.rxReset t).payload = sl.payload := rfl
@[simp] theorem Slot.rxReset_id (sl : Slot) (t : TxType) : (sl.rxReset t).id = sl.id := rfl
@[simp] theorem Slot.rxReset_watts (sl : Slot) (t : TxType) : (sl.rxReset t).watts = sl.watts := rfl
@[simp] theorem Slot.rxReset_timecode (sl : Slot) (t : TxType) :
    (sl.rxReset t).timecode = sl.timecode := rfl

/-! ### `setSlot` and `setCur` -/

@[simp] theorem State.slot_setSlot_self (s : State) (k : Fin config.nSlots) (sl : Slot) :
    (s.setSlot k sl).slot k = sl := by
  simp [State.slot, State.setSlot]

theorem State.slot_setSlot_ne (s : State) {j k : Fin config.nSlots} (sl : Slot) (h : k ≠ j) :
    (s.setSlot k sl).slot j = s.slot j := by
  have : k.val ≠ j.val := fun e => h (Fin.ext e)
  simp [State.slot, State.setSlot, this]

theorem State.slot_setSlot (s : State) (j k : Fin config.nSlots) (sl : Slot) :
    (s.setSlot k sl).slot j = if k = j then sl else s.slot j := by
  split
  · subst_vars; simp
  · exact s.slot_setSlot_ne sl ‹_›

@[simp] theorem State.setSlot_current (s : State) (k) (sl : Slot) : (s.setSlot k sl).current = s.current := rfl
@[simp] theorem State.setSlot_rxTypeSel (s : State) (k) (sl : Slot) :
    (s.setSlot k sl).rxTypeSel = s.rxTypeSel := rfl
@[simp] theorem State.setSlot_tx (s : State) (k) (sl : Slot) : (s.setSlot k sl).tx = s.tx := rfl
@[simp] theorem State.setSlot_asm (s : State) (k) (sl : Slot) : (s.setSlot k sl).asm = s.asm := rfl
@[simp] theorem State.setSlot_timeIn (s : State) (k) (sl : Slot) : (s.setSlot k sl).timeIn = s.timeIn := rfl
@[simp] theorem State.setSlot_inputs (s : State) (k) (sl : Slot) : (s.setSlot k sl).inputs = s.inputs := rfl
@[simp] theorem State.setSlot_port (s : State) (k) (sl : Slot) : (s.setSlot k sl).port = s.port := rfl
@[simp] theorem State.setSlot_response (s : State) (k) (sl : Slot) :
    (s.setSlot k sl).response = s.response := rfl
@[simp] theorem State.setSlot_freeCount (s : State) (k) (sl : Slot) :
    (s.setSlot k sl).freeCount = s.freeCount := rfl

@[simp] theorem State.cur_setCur (s : State) (sl : Slot) : (s.setCur sl).cur = sl :=
  s.slot_setSlot_self s.current sl

theorem State.slot_setCur (s : State) (j : Fin config.nSlots) (sl : Slot) :
    (s.setCur sl).slot j = if s.current = j then sl else s.slot j :=
  s.slot_setSlot j s.current sl

@[simp] theorem State.setCur_current (s : State) (sl : Slot) : (s.setCur sl).current = s.current := rfl
@[simp] theorem State.setCur_rxTypeSel (s : State) (sl : Slot) : (s.setCur sl).rxTypeSel = s.rxTypeSel := rfl
@[simp] theorem State.setCur_tx (s : State) (sl : Slot) : (s.setCur sl).tx = s.tx := rfl
@[simp] theorem State.setCur_asm (s : State) (sl : Slot) : (s.setCur sl).asm = s.asm := rfl
@[simp] theorem State.setCur_timeIn (s : State) (sl : Slot) : (s.setCur sl).timeIn = s.timeIn := rfl
@[simp] theorem State.setCur_inputs (s : State) (sl : Slot) : (s.setCur sl).inputs = s.inputs := rfl
@[simp] theorem State.setCur_port (s : State) (sl : Slot) : (s.setCur sl).port = s.port := rfl
@[simp] theorem State.setCur_response (s : State) (sl : Slot) : (s.setCur sl).response = s.response := rfl
@[simp] theorem State.setCur_freeCount (s : State) (sl : Slot) : (s.setCur sl).freeCount = s.freeCount := rfl

/-! ### `respond`, `respondFree`, `noOp` -/

@[simp] theorem State.respond_slots (s : State) (b : Byte) : (s.respond b).slots = s.slots := rfl
@[simp] theorem State.respond_slot (s : State) (b : Byte) (k) : (s.respond b).slot k = s.slot k := rfl
@[simp] theorem State.respond_cur (s : State) (b : Byte) : (s.respond b).cur = s.cur := rfl
@[simp] theorem State.respond_current (s : State) (b : Byte) : (s.respond b).current = s.current := rfl
@[simp] theorem State.respond_rxTypeSel (s : State) (b : Byte) : (s.respond b).rxTypeSel = s.rxTypeSel := rfl
@[simp] theorem State.respond_tx (s : State) (b : Byte) : (s.respond b).tx = s.tx := rfl
@[simp] theorem State.respond_asm (s : State) (b : Byte) : (s.respond b).asm = s.asm := rfl
@[simp] theorem State.respond_timeIn (s : State) (b : Byte) : (s.respond b).timeIn = s.timeIn := rfl
@[simp] theorem State.respond_inputs (s : State) (b : Byte) : (s.respond b).inputs = s.inputs := rfl
@[simp] theorem State.respond_port (s : State) (b : Byte) : (s.respond b).port = s.port := rfl
@[simp] theorem State.respond_response (s : State) (b : Byte) : (s.respond b).response = some b := rfl
@[simp] theorem State.respond_freeCount (s : State) (b : Byte) : (s.respond b).freeCount = s.freeCount := rfl

@[simp] theorem State.respondFree_slots (s : State) : s.respondFree.slots = s.slots := rfl
@[simp] theorem State.respondFree_slot (s : State) (k) : s.respondFree.slot k = s.slot k := rfl
@[simp] theorem State.respondFree_cur (s : State) : s.respondFree.cur = s.cur := rfl
@[simp] theorem State.respondFree_current (s : State) : s.respondFree.current = s.current := rfl
@[simp] theorem State.respondFree_rxTypeSel (s : State) : s.respondFree.rxTypeSel = s.rxTypeSel := rfl
@[simp] theorem State.respondFree_tx (s : State) : s.respondFree.tx = s.tx := rfl
@[simp] theorem State.respondFree_asm (s : State) : s.respondFree.asm = s.asm := rfl
@[simp] theorem State.respondFree_timeIn (s : State) : s.respondFree.timeIn = s.timeIn := rfl
@[simp] theorem State.respondFree_inputs (s : State) : s.respondFree.inputs = s.inputs := rfl
@[simp] theorem State.respondFree_port (s : State) : s.respondFree.port = s.port := rfl
@[simp] theorem State.respondFree_response (s : State) :
    s.respondFree.response = some (Config.freeByte s.freeCount) := rfl
@[simp] theorem State.respondFree_freeCount (s : State) : s.respondFree.freeCount = s.freeCount + 1 := rfl

@[simp] theorem State.noOp_slots (s : State) : s.noOp.slots = s.slots := rfl
@[simp] theorem State.noOp_slot (s : State) (k) : s.noOp.slot k = s.slot k := rfl
@[simp] theorem State.noOp_cur (s : State) : s.noOp.cur = s.cur := rfl
@[simp] theorem State.noOp_current (s : State) : s.noOp.current = s.current := rfl
@[simp] theorem State.noOp_rxTypeSel (s : State) : s.noOp.rxTypeSel = s.rxTypeSel := rfl
@[simp] theorem State.noOp_tx (s : State) : s.noOp.tx = s.tx := rfl
@[simp] theorem State.noOp_asm (s : State) : s.noOp.asm = s.asm := rfl
@[simp] theorem State.noOp_timeIn (s : State) : s.noOp.timeIn = s.timeIn := rfl
@[simp] theorem State.noOp_inputs (s : State) : s.noOp.inputs = s.inputs := rfl
@[simp] theorem State.noOp_port (s : State) : s.noOp.port = s.port := rfl
@[simp] theorem State.noOp_response (s : State) : s.noOp.response = some 0 := rfl
@[simp] theorem State.noOp_freeCount (s : State) : s.noOp.freeCount = s.freeCount := rfl

/-! ### `applyRst` -/

@[simp] theorem State.applyRst_slots (s : State) : s.applyRst.slots = State.reset.slots := rfl
@[simp] theorem State.applyRst_slot (s : State) (k) : s.applyRst.slot k = State.reset.slot k := rfl
@[simp] theorem State.applyRst_current (s : State) : s.applyRst.current = State.reset.current := rfl
@[simp] theorem State.applyRst_rxTypeSel (s : State) : s.applyRst.rxTypeSel = .txOnly := rfl
@[simp] theorem State.applyRst_tx (s : State) : s.applyRst.tx = Packet.atReset 0 := rfl
@[simp] theorem State.applyRst_asm (s : State) : s.applyRst.asm = Asm.atReset := rfl
@[simp] theorem State.applyRst_timeIn (s : State) : s.applyRst.timeIn = s.timeIn := rfl
@[simp] theorem State.applyRst_inputs (s : State) : s.applyRst.inputs = s.inputs := rfl
@[simp] theorem State.applyRst_port (s : State) : s.applyRst.port = s.port := rfl
@[simp] theorem State.applyRst_response (s : State) : s.applyRst.response = none := rfl
@[simp] theorem State.applyRst_freeCount (s : State) : s.applyRst.freeCount = s.freeCount := rfl

@[simp] theorem State.reset_slot (k : Fin config.nSlots) : State.reset.slot k = Slot.atReset := by
  simp [State.slot, State.reset]

end Sys2Proof.Machine
end

