-- ==== Sys2Proof/Laws/Ops.lean ====
section
/-! SUPPORT. For each shared operation one lemma that says everything it can do, to be cited instead
of unfolding the operation. -/

namespace Sys2Proof.Machine

/-! ### The configuration -/

theorem config_capacity : config.capacity = 32 := rfl
theorem config_dcap : config.dcap = 16 := rfl
theorem config_nSlots : config.nSlots = 5 := rfl
theorem config_len_le (t : TxType) : config.len t ≤ config.capacity := by cases t <;> decide
theorem config_len_pos (t : TxType) : 4 ≤ config.len t := by cases t <;> decide
theorem config_len_even (t : TxType) : config.len t % 2 = 0 := by cases t <;> decide

/-! ### Packet primitives -/

theorem Packet.hasRoom_iff (p : Packet) : p.hasRoom = true ↔ p.cursor.toNat < p.length.toNat := by
  simp [Packet.hasRoom, BitVec.lt_def]

theorem Packet.done_iff (p : Packet) : p.done = true ↔ p.cursor = p.length := by
  simp [Packet.done]

theorem Packet.append_full {p : Packet} (h : p.hasRoom = false) (b : Byte) : p.append b = p := by
  simp [Packet.append, h]

@[simp] theorem Packet.append_length (p : Packet) (b : Byte) : (p.append b).length = p.length := by
  unfold Packet.append; split <;> rfl

theorem Packet.append_cursor {p : Packet} (h : p.hasRoom = true) (b : Byte) :
    (p.append b).cursor.toNat = p.cursor.toNat + 1 := by
  have h1 := p.hasRoom_iff.1 h
  have h2 := p.length.isLt
  simp [Packet.append, h, BitVec.toNat_add]
  omega

theorem Packet.append_bytes {p : Packet} (h : p.hasRoom = true) (b : Byte)
    (i : Fin config.capacity) :
    (p.append b).bytes[i] = if i.val = p.cursor.toNat then .stored b else p.bytes[i] := by
  simp [Packet.append, h, Vector.getElem_setIfInBounds, eq_comm]

/-- The length a packet takes from a frame type is that type's length (R142, R196). -/
theorem Packet.setLength_len (p : Packet) (t : TxType) :
    p.setLength (config.len t) = { p with length := BitVec.ofNat 8 (config.len t) } := by
  simp [Packet.setLength, Nat.min_eq_left (config_len_le t)]

theorem len_toNat (t : TxType) : (BitVec.ofNat 8 (config.len t)).toNat = config.len t := by
  cases t <;> rfl

theorem Packet.byteAt_fin (p : Packet) (i : Fin config.capacity) : p.byteAt i.val = p.bytes[i].value := by
  simp [Packet.byteAt]

/-! ### Rotation -/

theorem nextSlot_val (k : Fin config.nSlots) : (nextSlot k).val = (k.val + 1) % config.nSlots := rfl

theorem nextSlot_ne (k : Fin config.nSlots) : nextSlot k ≠ k := by
  revert k; decide

theorem State.rotate_eq (s : State) :
    s.rotate = { s with
      current := nextSlot s.current
      slots := s.slots.set (nextSlot s.current).val
        ((s.slot (nextSlot s.current)).rxReset s.rxTypeSel) (nextSlot s.current).isLt } := rfl

/-! ### The receive operations -/

/-- Everything `Rx.append` can do to a slot: store and decode, store only, or nothing (R143). -/
theorem Slot.rxAppend_cases (sl : Slot) (b : Byte) (t : BitVec 32) :
    (sl.completes b = true ∧ sl.packet.hasRoom = true ∧
        sl.packet.cursor.toNat + 1 = sl.packet.length.toNat ∧
        sl.rxAppend b t = (sl.store b).postProcess t) ∨
      (sl.completes b = false ∧ sl.packet.hasRoom = true ∧
        sl.packet.cursor.toNat + 1 ≠ sl.packet.length.toNat ∧
        sl.rxAppend b t = sl.store b) ∨
      (sl.completes b = false ∧ sl.packet.hasRoom = false ∧ sl.rxAppend b t = sl) := by
  by_cases hr : sl.packet.hasRoom = true
  · have hc := Packet.append_cursor hr b
    have hd : (sl.packet.append b).done = true ↔
        sl.packet.cursor.toNat + 1 = sl.packet.length.toNat := by
      rw [Packet.done_iff, ← BitVec.toNat_inj, hc, Packet.append_length]
    by_cases h : (sl.packet.append b).done = true
    · exact .inl ⟨by simp [Slot.completes, hr, h], hr, hd.1 h, by simp [Slot.rxAppend, Slot.completes, hr, h]⟩
    · exact .inr (.inl ⟨by simp [Slot.completes, h], hr, fun e => h (hd.2 e),
        by simp [Slot.rxAppend, Slot.completes, h]⟩)
  · have hr' : sl.packet.hasRoom = false := by simpa using hr
    exact .inr (.inr ⟨by simp [Slot.completes, hr'], hr', by
      simp [Slot.rxAppend, Slot.completes, Slot.store, hr', Packet.append_full hr' b]⟩)

theorem Slot.completes_iff (sl : Slot) (b : Byte) :
    sl.completes b = true ↔ sl.packet.cursor.toNat + 1 = sl.packet.length.toNat := by
  rcases sl.rxAppend_cases b 0 with ⟨h, -, e, -⟩ | ⟨h, -, e, -⟩ | ⟨h, hr, -⟩
  · simp [h, e]
  · simp [h, e]
  · have : ¬ sl.packet.cursor.toNat < sl.packet.length.toNat := fun hlt => by
      simp [(Packet.hasRoom_iff _).2 hlt] at hr
    simp [h]; omega

/-- Decoding touches neither the packet record nor the type (R146, R147). -/
@[simp] theorem Slot.decodePacket_packet (sl : Slot) : sl.decodePacket.packet = sl.packet := by
  unfold Slot.decodePacket; dsimp only; split
  · split <;> rfl
  · rfl

@[simp] theorem Slot.decodePacket_txType (sl : Slot) : sl.decodePacket.txType = sl.txType := by
  unfold Slot.decodePacket; dsimp only; split
  · split <;> rfl
  · rfl

@[simp] theorem Slot.postProcess_packet (sl : Slot) (t : BitVec 32) :
    (sl.postProcess t).packet = sl.packet := sl.decodePacket_packet
@[simp] theorem Slot.postProcess_txType (sl : Slot) (t : BitVec 32) :
    (sl.postProcess t).txType = sl.txType := sl.decodePacket_txType
@[simp] theorem Slot.postProcess_timecode (sl : Slot) (t : BitVec 32) :
    (sl.postProcess t).timecode = .stored t := rfl

/-- The three outcomes of the pipeline (the table of R146). -/
theorem Slot.postProcess_cases (sl : Slot) (t : BitVec 32) :
    (sl.symbolsValid = false ∧
        sl.postProcess t = { sl with health := .bad, timecode := .stored t }) ∨
      (sl.symbolsValid = true ∧ sl.deManchesterise.checksumMatches = false ∧
        sl.postProcess t = { sl.deManchesterise with health := .bad, timecode := .stored t }) ∨
      (sl.symbolsValid = true ∧ sl.deManchesterise.checksumMatches = true ∧
        sl.postProcess t =
          { sl.deManchesterise.decodeId.decodeWattage with health := .ok, timecode := .stored t }) := by
  unfold Slot.postProcess Slot.decodePacket
  cases h : sl.symbolsValid
  · exact .inl ⟨rfl, by simp⟩
  · cases h2 : sl.deManchesterise.checksumMatches
    · exact .inr (.inl ⟨rfl, rfl, by simp [h2]⟩)
    · exact .inr (.inr ⟨rfl, rfl, by simp [h2]⟩)

theorem Slot.postProcess_health (sl : Slot) (t : BitVec 32) :
    (sl.postProcess t).health = .ok ∨ (sl.postProcess t).health = .bad := by
  rcases sl.postProcess_cases t with ⟨-, h⟩ | ⟨-, -, h⟩ | ⟨-, -, h⟩ <;> rw [h] <;> simp

theorem payload_foldl {n : Nat} (f : Nat → Byte) (m : Nat) (v : Vector (Reg 8) n) (j : Fin n) :
    ((List.range m).foldl (fun v j => v.setIfInBounds j (.stored (f j))) v)[j] =
      if j.val < m then Reg.stored (f j.val) else v[j] := by
  induction m with
  | zero => simp
  | succ m ih =>
    rw [List.range_succ, List.foldl_append]
    simp only [List.foldl_cons, List.foldl_nil, Fin.getElem_fin, Vector.getElem_setIfInBounds]
    simp only [Fin.getElem_fin] at ih
    rw [ih]
    by_cases h : m = j.val
    · subst h; simp
    · simp only [h, if_false]
      by_cases h2 : j.val < m
      · simp [h2, Nat.lt_succ_of_lt h2]
      · have : ¬ j.val < m + 1 := by omega
        simp [h2, this]

/-- What a successful Manchester step leaves in the payload array (R147). -/
theorem Slot.deManchesterise_payload (sl : Slot) (j : Fin config.dcap) :
    sl.deManchesterise.payload[j] =
      if j.val < sl.packet.length.toNat / 2 then .stored (sl.decodedByte j.val) else sl.payload[j] :=
  payload_foldl sl.decodedByte _ _ j

/-- Everything `Buf.append` can do (R191): complete the packet, move on and reset the next slot, or act
on the current slot alone. -/
theorem State.bufAppend_cases (s : State) (b : Byte) :
    (s.cur.completes b = true ∧
        s.cur.rxAppend b s.timeIn = (s.cur.store b).postProcess s.timeIn ∧
        s.bufAppend b = { s with
          slots := (s.slots.set s.current.val (s.cur.rxAppend b s.timeIn) s.current.isLt).set
            (nextSlot s.current).val ((s.slot (nextSlot s.current)).rxReset s.rxTypeSel)
            (nextSlot s.current).isLt
          current := nextSlot s.current }) ∨
      (s.cur.completes b = false ∧
        s.bufAppend b = s.setCur (s.cur.rxAppend b s.timeIn)) := by
  cases h : s.cur.completes b
  · exact .inr ⟨rfl, by simp [State.bufAppend, h]⟩
  · refine .inl ⟨rfl, ?_, ?_⟩
    · rcases s.cur.rxAppend_cases b s.timeIn with ⟨-, -, -, e⟩ | ⟨h', -⟩ | ⟨h', -⟩
      · exact e
      · rw [h] at h'; cases h'
      · rw [h] at h'; cases h'
    · have hn : (s.setCur (s.cur.rxAppend b s.timeIn)).slot (nextSlot s.current) =
          s.slot (nextSlot s.current) := by
        rw [State.slot_setCur, if_neg (nextSlot_ne s.current).symm]
      unfold State.bufAppend
      rw [h, if_pos rfl, State.rotate_eq]
      simp only [State.setCur_current]
      rw [hn]
      rfl

/-- The slots after a rotation: the completed one, the one after it, and the others. -/
theorem State.slot_rotated (s : State) (sl new : Slot) (j : Fin config.nSlots) :
    ({ s with
      slots := (s.slots.set s.current.val sl s.current.isLt).set (nextSlot s.current).val new
        (nextSlot s.current).isLt
      current := nextSlot s.current } : State).slot j =
      if nextSlot s.current = j then new else if s.current = j then sl else s.slot j := by
  have h := State.slot_setSlot (s.setSlot s.current sl) j (nextSlot s.current) new
  rw [State.slot_setSlot s j s.current sl] at h
  exact h

/-- Everything `RXTYPE` can do (R196). -/
theorem State.tellType_cases (s : State) (t : TxType) :
    (s.cur.packet.cursor = 0 ∧
        s.tellType t = ({ s with rxTypeSel := t } : State).setCur (s.cur.retype t)) ∨
      (s.cur.packet.cursor ≠ 0 ∧ s.tellType t = { s with rxTypeSel := t }) := by
  unfold State.tellType
  by_cases h : s.cur.packet.cursor = 0
  · exact .inl ⟨h, if_pos h⟩
  · exact .inr ⟨h, if_neg h⟩

/-! ### The transmit operations -/

@[simp] theorem Packet.assemble_cursor (p : Packet) (bs : List Byte) (c : Bool) :
    (p.assemble bs c).cursor = 0 := rfl

/-- Everything the header of `TXASM` can do (R172). -/
theorem State.startAssembly_cases (s : State) (c : Bool) (n : Byte) :
    (n = 0 ∧ s.startAssembly c n = { s with tx := s.tx.assemble [] c }) ∨
      (n ≠ 0 ∧ s.startAssembly c n =
        { s with asm := { active := true, c := c, n := n, buf := [] } }) := by
  unfold State.startAssembly
  by_cases h : n = 0
  · exact .inl ⟨h, if_pos h⟩
  · exact .inr ⟨h, if_neg h⟩

/-- Everything a data word can do (R101). -/
theorem State.takeDataWord_cases (s : State) (w : Word) :
    (s.asm.buf.length + 1 = s.asm.n.toNat ∧
        s.takeDataWord w = { s with
          tx := s.tx.assemble (s.asm.buf ++ [dataByte w]) s.asm.c
          asm := { s.asm with active := false, buf := [] }, response := some 0 }) ∨
      (s.asm.buf.length + 1 ≠ s.asm.n.toNat ∧
        s.takeDataWord w = { s with
          asm := { s.asm with buf := s.asm.buf ++ [dataByte w] }, response := some 0 }) := by
  unfold State.takeDataWord State.respond
  by_cases h : s.asm.buf.length + 1 = s.asm.n.toNat
  · exact .inl ⟨h, by simp [h]⟩
  · exact .inr ⟨h, by simp [h]⟩

/-- Everything `TXNEXT` can do (R180, R181). -/
theorem State.emitNext_cases (s : State) :
    (s.tx.hasRoom = true ∧ s.emitNext = { s with
        tx := s.tx.advance
        response := some (s.tx.byteAt s.tx.cursor.toNat) }) ∨
      (s.tx.hasRoom = false ∧ s.emitNext = s.respondFree) := by
  unfold State.emitNext
  cases h : s.tx.hasRoom
  · exact .inr ⟨rfl, by simp⟩
  · exact .inl ⟨rfl, by simp [State.respond]⟩

/-! ### Responses and port permission -/

/-- A response is a byte the map names or the next free value (R95, U1, U2). -/
theorem State.respondWith_cases (s : State) (r : Option Byte) :
    (∃ b, r = some b ∧ s.respondWith r = s.respond b) ∨
      (r = none ∧ s.respondWith r = s.respondFree) := by
  cases r
  · exact .inr ⟨rfl, rfl⟩
  · exact .inl ⟨_, rfl, rfl⟩

/-- A command on a port has its effect there, and is a no-op on the other (R110). -/
theorem State.onPort_cases (s : State) (q : Port) (e : State) :
    (s.port = q ∧ s.onPort q e = .next e) ∨ (s.port ≠ q ∧ s.onPort q e = .next s.noOp) := by
  unfold State.onPort
  by_cases h : s.port = q
  · exact .inl ⟨h, by simp [h]⟩
  · exact .inr ⟨h, by simp [h]⟩

theorem State.onPort_accepted {s : State} {q : Port} (h : s.port = q) (e : State) :
    s.onPort q e = .next e := by
  rcases s.onPort_cases q e with ⟨-, h'⟩ | ⟨hn, -⟩
  · exact h'
  · exact absurd h hn

end Sys2Proof.Machine
end

