-- ==== Sys2Proof/Laws/PerInstr.lean ====
section
/-! SUPPORT. Statements about every instruction as syntax, one lemma an instruction. -/

namespace Sys2Proof.Laws.OpField

/-- The top four bits of a word built from a prefix of at least four bits are the prefix's. -/
theorem op_append {m n : Nat} (p : BitVec m) (x : BitVec n) (h : m + n = 16) (hm : 4 ≤ m) :
    opField ((p ++ x).cast h) = p.extractLsb' (m - 4) 4 := by
  unfold opField
  ext i hi
  simp only [BitVec.getElem_extractLsb', BitVec.getLsbD_cast, BitVec.getLsbD_append]
  rw [if_neg (by omega)]
  congr 1
  omega

/-- The `op` field of an instruction's command word is the one its row of the opcode map names
(R91, R93). -/
def Statement (i : Instr) : Prop :=
  opField (encode i) =
    match i with
    | .nop => 0x0
    | .rxb _ => 0x1
    | .rxtype _ => 0x2
    | .rxrst => 0x3
    | .rd _ => 0x4
    | .txasm _ _ => 0x5
    | .txnext => 0x6
    | .txrst => 0x7

theorem nop : Statement .nop := rfl

theorem rxb (b : Byte) : Statement (.rxb b) :=
  op_append (0x10 : BitVec 8) b rfl (by decide)

theorem rxtype (t : TxType) : Statement (.rxtype t) := by cases t <;> rfl

theorem rxrst : Statement .rxrst := rfl

theorem rd (a : BitVec 12) : Statement (.rd a) :=
  op_append (0x4 : BitVec 4) a rfl (by decide)

theorem txasm (c : Bool) (n : Byte) : Statement (.txasm c n) :=
  op_append (0b0101000 : BitVec 7) (BitVec.ofBool c ++ n) rfl (by decide)

theorem txnext : Statement .txnext := rfl

theorem txrst : Statement .txrst := rfl

end Sys2Proof.Laws.OpField
end

