-- ==== Sys2Proof/Laws/Reads.lean ====
section
/-! SUPPORT. The read map: where an address lies, what a read of a register byte answers, and which
offsets no row names. -/

namespace Sys2Proof.Machine

theorem slotIndex_lt (k : Fin config.nSlots) : k.val < 5 := k.isLt
theorem byteIndex_lt (i : Fin config.capacity) : i.val < 32 := i.isLt
theorem payloadIndex_lt (j : Fin config.dcap) : j.val < 16 := j.isLt

/-- A read in the window of slot `k` (R63). -/
theorem State.memRead_slot (s : State) (k : Fin config.nSlots) {off : Nat} (ho : off < 64) :
    s.memRead (BitVec.ofNat 12 (0x40 * k.val + off)) = (s.slot k).windowByte (BitVec.ofNat 6 off) := by
  have hk := slotIndex_lt k
  have e1 : (BitVec.ofNat 12 (0x40 * k.val + off)).toNat = 0x40 * k.val + off := by simp; omega
  have e2 : ((BitVec.ofNat 12 (0x40 * k.val + off)).extractLsb' 6 5).toNat = k.val := by
    simp [BitVec.extractLsb', Nat.shiftRight_eq_div_pow]; omega
  have e3 : (BitVec.ofNat 12 (0x40 * k.val + off)).extractLsb' 0 6 = BitVec.ofNat 6 off := by
    apply BitVec.eq_of_toNat_eq; simp [BitVec.extractLsb']
  unfold State.memRead
  rw [if_pos (by omega), dif_pos (by rw [e2]; exact k.isLt), e3]
  congr 2
  exact Fin.ext e2

theorem Slot.windowByte_raw (sl : Slot) (i : Fin config.capacity) :
    sl.windowByte (BitVec.ofNat 6 i.val) = sl.packet.bytes[i].byte 0 := by
  have hi := byteIndex_lt i
  have e : (BitVec.ofNat 6 i.val).toNat = i.val := by simp; omega
  unfold Slot.windowByte
  simp only [e]
  rw [if_pos (by omega)]
  unfold arrayByte
  rw [Vector.getElem?_eq_getElem i.isLt]
  rfl

theorem Slot.windowByte_payload (sl : Slot) (j : Fin config.dcap) :
    sl.windowByte (BitVec.ofNat 6 (0x20 + j.val)) = sl.payload[j].byte 0 := by
  have hj := payloadIndex_lt j
  have e : (BitVec.ofNat 6 (0x20 + j.val)).toNat = 0x20 + j.val := by simp; omega
  unfold Slot.windowByte
  simp only [e]
  rw [if_neg (by omega), if_pos (by omega)]
  unfold arrayByte
  rw [Nat.add_sub_cancel_left, Vector.getElem?_eq_getElem j.isLt]
  rfl

/-- A read in the TX window (R64). -/
theorem State.memRead_tx (s : State) {o : Nat} (ho : o < 0x40) :
    s.memRead (BitVec.ofNat 12 (0x800 + o)) = s.txWindowByte o := by
  have e : (BitVec.ofNat 12 (0x800 + o)).toNat = 0x800 + o := by simp; omega
  unfold State.memRead
  rw [if_neg (by omega), if_pos (by omega), e, Nat.add_sub_cancel_left]

/-- A read in the global window (R65). -/
theorem State.memRead_global (s : State) {o : Nat} (ho : o < 0x40) :
    s.memRead (BitVec.ofNat 12 (0x840 + o)) = some (s.globalByte o) := by
  have e : (BitVec.ofNat 12 (0x840 + o)).toNat = 0x840 + o := by simp; omega
  unfold State.memRead
  rw [if_neg (by omega), if_neg (by omega), if_pos (by omega), e, Nat.add_sub_cancel_left]

/-- A read depends on the pool, `current`, `rx_type_sel` and the TX packet alone (R60, R62). -/
theorem State.memRead_congr (s t : State) (hs : t.slots = s.slots) (hc : t.current = s.current)
    (hr : t.rxTypeSel = s.rxTypeSel) (ht : t.tx = s.tx) (a : BitVec 12) :
    t.memRead a = s.memRead a := by
  unfold State.memRead State.slot State.txWindowByte State.globalByte State.txStatus State.txDone
  rw [hs, hc, hr, ht]

theorem State.txWindowByte_reserved (s : State) {o : Nat} (ho : 0x23 ≤ o) : s.txWindowByte o = some 0 := by
  obtain ⟨m, rfl⟩ := Nat.exists_eq_add_of_le ho
  have e : 0x23 + m - 0x20 = m + 3 := by omega
  unfold State.txWindowByte
  rw [if_neg (by omega), e]
  rfl

theorem State.globalByte_reserved (s : State) {o : Nat} (ho : 7 ≤ o) : s.globalByte o = 0 := by
  obtain ⟨m, rfl⟩ := Nat.exists_eq_add_of_le ho
  rw [Nat.add_comm]
  rfl

/-- Slots are read below `0x800`; the windows of slots that do not exist read zero (R66). -/
theorem State.memRead_absent_slot (s : State) {a : BitVec 12} (h : 0x40 * config.nSlots ≤ a.toNat)
    (h' : a.toNat < 0x800) : s.memRead a = some 0 := by
  have e : (a.extractLsb' 6 5).toNat = a.toNat / 64 % 32 := by
    simp [BitVec.extractLsb', Nat.shiftRight_eq_div_pow]
  unfold State.memRead
  have hn : ¬ (a.extractLsb' 6 5).toNat < config.nSlots := by
    rw [e]; rw [config_nSlots] at *; omega
  rw [if_pos h', dif_neg hn]

/-- What a read of a register byte does (R210, U2): the byte if it is written, a free value if not. -/
theorem State.respondWith_byte (s : State) {w : Nat} (r : Reg w) (i : Nat) :
    s.respondWith (r.byte i) =
      if r.written then { s with response := some (r.value.extractLsb' (8 * i) 8) }
      else { s with
        response := some (Config.freeByte s.freeCount), freeCount := s.freeCount + 1 } := by
  unfold Reg.byte
  split <;> rfl

end Sys2Proof.Machine
end

