-- ==== Sys2Proof/Laws/Step.lean ====
section
/-! SUPPORT. What a step and an instruction can do, said once: each arm of `exec`, each kind of input,
and the inversion lemma of `step` from which invariants are derived. -/

namespace Sys2Proof.Machine

/-- The state an instruction leaves when its port accepts it. -/
def Instr.effect (s : State) : Instr → State
  | .nop => s.noOp
  | .rxb b => (s.bufAppend b).respond (if s.cur.completes b then 0x01 else 0x00)
  | .rxtype t => (s.tellType t).respond 0
  | .rxrst => (s.setCur (s.cur.rxReset s.rxTypeSel)).respond 0
  | .rd a => s.respondWith (s.memRead a)
  | .txasm c n => (s.startAssembly c n).respond 0
  | .txnext => s.emitNext
  | .txrst => { s with tx := s.tx.rewind }.respond 0

/-- Everything `exec` can do: the instruction's effect on a port that accepts it, a no-op on the other
(R110). -/
theorem exec_cases (i : Instr) (s : State) :
    (i.acceptedOn s.port = true ∧ exec i s = .next (Instr.effect s i)) ∨
      (i.acceptedOn s.port = false ∧ exec i s = .next s.noOp) := by
  cases i with
  | nop => exact .inl ⟨rfl, rfl⟩
  | rxb b =>
    rcases s.onPort_cases .p ((s.bufAppend b).respond (if s.cur.completes b then 0x01 else 0x00))
      with ⟨h, e⟩ | ⟨h, e⟩
    · exact .inl ⟨by simp [Instr.acceptedOn, h], e⟩
    · exact .inr ⟨by simpa [Instr.acceptedOn] using h, e⟩
  | rxtype t =>
    rcases s.onPort_cases .p ((s.tellType t).respond 0) with ⟨h, e⟩ | ⟨h, e⟩
    · exact .inl ⟨by simp [Instr.acceptedOn, h], e⟩
    · exact .inr ⟨by simpa [Instr.acceptedOn] using h, e⟩
  | rxrst =>
    rcases s.onPort_cases .p ((s.setCur (s.cur.rxReset s.rxTypeSel)).respond 0) with ⟨h, e⟩ | ⟨h, e⟩
    · exact .inl ⟨by simp [Instr.acceptedOn, h], e⟩
    · exact .inr ⟨by simpa [Instr.acceptedOn] using h, e⟩
  | rd a =>
    rcases s.onPort_cases .c (s.respondWith (s.memRead a)) with ⟨h, e⟩ | ⟨h, e⟩
    · exact .inl ⟨by simp [Instr.acceptedOn, h], e⟩
    · exact .inr ⟨by simpa [Instr.acceptedOn] using h, e⟩
  | txasm c n =>
    rcases s.onPort_cases .c ((s.startAssembly c n).respond 0) with ⟨h, e⟩ | ⟨h, e⟩
    · exact .inl ⟨by simp [Instr.acceptedOn, h], e⟩
    · exact .inr ⟨by simpa [Instr.acceptedOn] using h, e⟩
  | txnext =>
    rcases s.onPort_cases .c s.emitNext with ⟨h, e⟩ | ⟨h, e⟩
    · exact .inl ⟨by simp [Instr.acceptedOn, h], e⟩
    · exact .inr ⟨by simpa [Instr.acceptedOn] using h, e⟩
  | txrst =>
    rcases s.onPort_cases .c ({ s with tx := s.tx.rewind }.respond 0) with ⟨h, e⟩ | ⟨h, e⟩
    · exact .inl ⟨by simp [Instr.acceptedOn, h], e⟩
    · exact .inr ⟨by simpa [Instr.acceptedOn] using h, e⟩

/-! ### The inputs behind a command

No command reads or writes the inputs still to come: its effect is the same whatever they are. -/

theorem State.bufAppend_inputs (s : State) (b : Byte) (r : List Input) :
    ({ s with inputs := r } : State).bufAppend b = { s.bufAppend b with inputs := r } := by
  rcases s.bufAppend_cases b with ⟨h, -, e⟩ | ⟨h, e⟩ <;>
  rcases ({ s with inputs := r } : State).bufAppend_cases b with ⟨h', -, e'⟩ | ⟨h', e'⟩
  · rw [e, e']; rfl
  · exact absurd (h.symm.trans h') (by decide)
  · exact absurd (h.symm.trans h') (by decide)
  · rw [e, e']; rfl

theorem State.tellType_inputs (s : State) (t : TxType) (r : List Input) :
    ({ s with inputs := r } : State).tellType t = { s.tellType t with inputs := r } := by
  rcases s.tellType_cases t with ⟨h, e⟩ | ⟨h, e⟩ <;>
  rcases ({ s with inputs := r } : State).tellType_cases t with ⟨h', e'⟩ | ⟨h', e'⟩
  · rw [e, e']; rfl
  · exact absurd h h'
  · exact absurd h' h
  · rw [e, e']

theorem State.startAssembly_inputs (s : State) (c : Bool) (n : Byte) (r : List Input) :
    ({ s with inputs := r } : State).startAssembly c n = { s.startAssembly c n with inputs := r } := by
  unfold State.startAssembly; split <;> rfl

theorem State.emitNext_inputs (s : State) (r : List Input) :
    ({ s with inputs := r } : State).emitNext = { s.emitNext with inputs := r } := by
  rcases s.emitNext_cases with ⟨h, e⟩ | ⟨h, e⟩ <;>
  rcases ({ s with inputs := r } : State).emitNext_cases with ⟨h', e'⟩ | ⟨h', e'⟩
  · rw [e, e']
  · exact absurd (h.symm.trans h') (by decide)
  · exact absurd (h.symm.trans h') (by decide)
  · rw [e, e']; rfl

theorem Instr.effect_inputs (i : Instr) (s : State) (r : List Input) :
    Instr.effect { s with inputs := r } i = { Instr.effect s i with inputs := r } := by
  cases i with
  | nop => rfl
  | rxb b => simp only [Instr.effect, State.bufAppend_inputs]; rfl
  | rxtype t => simp only [Instr.effect, State.tellType_inputs]; rfl
  | rxrst => rfl
  | rd a =>
    simp only [Instr.effect]
    rw [State.memRead_congr s { s with inputs := r } rfl rfl rfl rfl a]
    cases s.memRead a <;> rfl
  | txasm c n => simp only [Instr.effect, State.startAssembly_inputs]; rfl
  | txnext => simp only [Instr.effect, State.emitNext_inputs]
  | txrst => rfl

theorem State.takeDataWord_inputs (s : State) (w : Word) (r : List Input) :
    ({ s with inputs := r } : State).takeDataWord w = { s.takeDataWord w with inputs := r } := by
  unfold State.takeDataWord; dsimp only; split <;> rfl

/-! ### One kind of input each -/

theorem step_idle {s : State} (h : s.inputs = []) : step s = .next { s with response := none } := by
  simp [step, State.fetch, h]

theorem step_rst {s : State} {rest : List Input} (h : s.inputs = .rst :: rest) :
    step s = .next { s with inputs := rest }.applyRst := by
  simp [step, State.fetch, h]

theorem step_time {s : State} {rest : List Input} {t : BitVec 32} (h : s.inputs = .time t :: rest) :
    step s = .next { s with inputs := rest, timeIn := t, response := none } := by
  simp [step, State.fetch, h]

theorem step_data {s : State} {rest : List Input} {w : Word} (h : s.inputs = .word .c w :: rest)
    (ha : s.asm.active = true) :
    step s = .next (State.takeDataWord { s with inputs := rest, port := .c } w) := by
  simp [step, State.fetch, State.takeWord, h, ha]

theorem step_reserved {s : State} {q : Port} {rest : List Input} {w : Word} {e : DecodeError}
    (h : s.inputs = .word q w :: rest) (hq : ¬ (q = .c ∧ s.asm.active = true))
    (hd : decode w = .error e) :
    step s = .next (State.noOp { s with inputs := rest, port := q }) := by
  simp [step, State.fetch, State.takeWord, h, hq, hd]

/-- Everything a step can do: it answers a next state, and which one depends only on the kind of the
next input. -/
theorem step_cases {s t : State} (h : step s = .next t) :
    (s.inputs = [] ∧ t = { s with response := none }) ∨
    (∃ rest, s.inputs = .rst :: rest ∧ t = { s with inputs := rest }.applyRst) ∨
    (∃ x rest, s.inputs = .time x :: rest ∧
      t = { s with inputs := rest, timeIn := x, response := none }) ∨
    (∃ w rest, s.inputs = .word .c w :: rest ∧ s.asm.active = true ∧
      t = State.takeDataWord { s with inputs := rest, port := .c } w) ∨
    (∃ q w rest i, s.inputs = .word q w :: rest ∧ ¬ (q = .c ∧ s.asm.active = true) ∧
      decode w = .ok i ∧ i.acceptedOn q = true ∧
      t = Instr.effect { s with inputs := rest, port := q } i) ∨
    (∃ q w rest, s.inputs = .word q w :: rest ∧ ¬ (q = .c ∧ s.asm.active = true) ∧
      (∀ i, decode w = .ok i → i.acceptedOn q = false) ∧
      t = State.noOp { s with inputs := rest, port := q }) := by
  rcases hi : s.inputs with _ | ⟨⟨q, w⟩ | x | _, rest⟩
  · rw [step_idle hi] at h
    exact .inl ⟨rfl, by simpa [hi] using h.symm⟩
  · by_cases hq : q = .c ∧ s.asm.active = true
    · obtain ⟨rfl, ha⟩ := hq
      rw [step_data hi ha] at h
      exact .inr (.inr (.inr (.inl ⟨w, rest, rfl, ha, by simpa using h.symm⟩)))
    · rcases hd : decode w with e | i
      · rw [step_reserved hi hq hd] at h
        exact .inr (.inr (.inr (.inr (.inr ⟨q, w, rest, rfl, hq, by simp [hd], by simpa using h.symm⟩))))
      · have hs : step s = exec i { s with inputs := rest, port := q } := by
          simp [step, State.fetch, State.takeWord, hi, hq, hd]
        rw [hs] at h
        rcases exec_cases i { s with inputs := rest, port := q } with ⟨ha, e⟩ | ⟨ha, e⟩
        · rw [e] at h
          exact .inr (.inr (.inr (.inr (.inl ⟨q, w, rest, i, rfl, hq, hd, ha, by simpa using h.symm⟩))))
        · rw [e] at h
          exact .inr (.inr (.inr (.inr (.inr ⟨q, w, rest, rfl, hq,
            fun j hj => by rw [hd] at hj; cases hj; exact ha, by simpa using h.symm⟩))))
  · rw [step_time hi] at h
    exact .inr (.inr (.inl ⟨x, rest, rfl, by simpa using h.symm⟩))
  · rw [step_rst hi] at h
    exact .inr (.inl ⟨rest, rfl, by simpa using h.symm⟩)

end Sys2Proof.Machine
end

