-- ==== Sys2Proof/Laws/Receive.lean ====
section
/-! SUPPORT. The decode pipeline on the slot a raw byte was just stored in, in the terms claims use
(`frameWith`, `decodeFrame`, `checksumOk`), and runs one input at a time. -/

namespace Sys2Proof.Machine

/-- Reading back a stored raw byte (R122). -/
theorem Packet.byteAt_append {p : Packet} (hi : p.Inv) (hr : p.hasRoom = true) (b : Byte)
    (i : Nat) :
    (p.append b).byteAt i = if i = p.cursor.toNat then b else p.byteAt i := by
  have h1 := (p.hasRoom_iff).1 hr
  have h2 := hi.2
  unfold Packet.byteAt Packet.append
  rw [if_pos hr]
  simp only [Vector.getElem?_setIfInBounds]
  by_cases h : p.cursor.toNat = i
  · subst h; simp; rw [if_pos (by omega)]; rfl
  · simp [h, Ne.symm h]

/-- The Manchester check on the slot with `b` stored is the one on its raw frame (R147). -/
theorem Slot.symbolsValid_store {s : Slot} (hi : s.packet.Inv) (hr : s.packet.hasRoom = true)
    (b : Byte) :
    Slot.symbolsValid (s.store b) = frameValid (s.frameWith b) := by
  unfold Slot.symbolsValid frameValid Slot.frameWith
  simp only [Slot.store_packet, Packet.append_length, List.all_map]
  congr 1; funext i
  show validRaw _ = validRaw _
  rw [Packet.byteAt_append hi hr]

theorem Slot.frameWith_getD (s : Slot) (b : Byte) (i : Nat) (h : i < s.packet.length.toNat) :
    (s.frameWith b).getD i 0 = if i = s.packet.cursor.toNat then b else s.packet.byteAt i := by
  unfold Slot.frameWith
  simp [List.getD, h]

theorem Slot.frameWith_length (s : Slot) (b : Byte) :
    (s.frameWith b).length = s.packet.length.toNat := by simp [Slot.frameWith]

theorem decodeFrame_length (raw : List Byte) :
    (decodeFrame raw).length = raw.length / 2 := by simp [decodeFrame]

/-- A decoded byte of the slot is that of its raw frame (R145). -/
theorem Slot.decodedByte_store {s : Slot} (hi : s.packet.Inv) (hr : s.packet.hasRoom = true)
    (b : Byte) (j : Nat) (hj : j < s.packet.length.toNat / 2) :
    Slot.decodedByte (s.store b) j = (decodeFrame (s.frameWith b)).getD j 0 := by
  unfold Slot.decodedByte decodeFrame
  have hl : (s.frameWith b).length = s.packet.length.toNat := by simp [Slot.frameWith]
  rw [Slot.store_packet, Packet.byteAt_append hi hr, Packet.byteAt_append hi hr, hl]
  rw [List.getD_eq_getElem?_getD, List.getElem?_map, List.getElem?_range hj]
  simp only [Option.map_some, Option.getD_some]
  rw [Slot.frameWith_getD _ _ _ (by omega), Slot.frameWith_getD _ _ _ (by omega)]

/-- The decoded payload after the Manchester step (R147). -/
theorem Slot.payloadAt_store {s : Slot} (hi : s.packet.Inv) (hr : s.packet.hasRoom = true)
    (b : Byte) (j : Nat) (hj : j < s.packet.length.toNat / 2) :
    (s.store b).deManchesterise.payloadAt j = (decodeFrame (s.frameWith b)).getD j 0 := by
  have hl := hi.2
  have hj' : j < config.dcap := by rw [config_dcap]; rw [config_capacity] at hl; omega
  have := Slot.deManchesterise_payload (s.store b) ⟨j, hj'⟩
  unfold Slot.payloadAt
  rw [Vector.getElem?_eq_getElem hj', Option.getD_some]
  simp only [Fin.getElem_fin] at this
  rw [this, if_pos (by simpa using hj)]
  exact Slot.decodedByte_store hi hr b j hj

/-- The decoded payload registers after the Manchester step (R147). -/
theorem Slot.payload_store {s : Slot} (hi : s.packet.Inv) (hr : s.packet.hasRoom = true)
    (b : Byte) (j : Fin config.dcap) :
    (s.store b).deManchesterise.payload[j] =
      if j.val < s.packet.length.toNat / 2 then ⟨(decodeFrame (s.frameWith b)).getD j.val 0, true⟩
      else s.payload[j] := by
  rw [Slot.deManchesterise_payload]
  simp only [Slot.store_packet, Packet.append_length]
  split
  · rw [Slot.decodedByte_store hi hr b _ ‹_›]; rfl
  · rfl

/-- The checksum test on the slot is the one on its decoded frame (R148). -/
theorem Slot.checksumMatches_store {s : Slot} (hi : s.Inv) (hr : s.packet.hasRoom = true)
    (b : Byte) :
    (s.store b).deManchesterise.checksumMatches = checksumOk (decodeFrame (s.frameWith b)) := by
  have hlen := hi.2.1
  have h4 := config_len_pos s.txType
  unfold Slot.checksumMatches checksumOk
  rw [decodeFrame_length, Slot.frameWith_length]
  have hpk : (s.store b).deManchesterise.packet.length = s.packet.length := Packet.append_length _ _
  rw [hpk]
  simp only
  rw [Slot.payloadAt_store hi.1 hr b _ (by omega)]
  congr 2
  apply List.ext_getElem
  · simp [decodeFrame_length, Slot.frameWith_length]
  · intro j h1 h2
    simp at h1
    rw [List.getElem_map, List.getElem_range, Slot.payloadAt_store hi.1 hr b _ (by omega), List.getElem_take]
    rw [List.getD_eq_getElem _ _ (by rw [decodeFrame_length, Slot.frameWith_length]; omega)]

/-- A big-endian field of the slot is that of its decoded frame (R149). -/
theorem Slot.field16_store {s : Slot} (hi : s.packet.Inv) (hr : s.packet.hasRoom = true)
    (b : Byte) (o : Nat) (ho : o + 1 < s.packet.length.toNat / 2) :
    (s.store b).deManchesterise.field16 o = fieldAt (decodeFrame (s.frameWith b)) o := by
  unfold Slot.field16 fieldAt
  rw [Slot.payloadAt_store hi hr b _ (by omega), Slot.payloadAt_store hi hr b _ ho]

/-- A reading of the slot is that of its decoded frame (R150). -/
theorem Slot.wattReading_store {s : Slot} (hi : s.Inv) (hr : s.packet.hasRoom = true) (b : Byte)
    (c : Nat) :
    (s.store b).deManchesterise.decodeId.wattReading c = wattAt s.txType (decodeFrame (s.frameWith b)) c := by
  unfold Slot.wattReading wattAt
  show (if c < (config.layout s.txType).nWatts then
    Slot.field16 _ ((config.layout s.txType).wattsOff.getD c 0) else _) = _
  split
  · rename_i hc
    refine Slot.field16_store hi.1 hr b _ ?_
    rw [hi.2.1]
    cases hT : s.txType
    · rw [hT] at hc
      have : c < 3 := hc
      interval_cases c <;> decide
    · rw [hT] at hc
      have : c < 1 := hc
      interval_cases c
      decide
  · rfl

/-- The slot that has just completed, once the pool has moved on (R191). -/
theorem State.slot_completed (s : State) (sl new : Slot) (k n : Fin config.nSlots) (h : n ≠ k)
    (r : Option Byte) :
    State.slot { s with
      slots := (s.slots.set k.val sl k.isLt).set n.val new n.isLt
      current := n, response := r } k = sl := by
  have : n.val ≠ k.val := fun e => h (Fin.ext e)
  simp [State.slot, this]

/-! ### Runs -/

theorem State.runInputs_cons {s t : State} {i : Input} {is : List Input}
    (h : step { s with inputs := [i] } = .next t) :
    s.runInputs (i :: is) = t.runInputs is := by
  rw [State.runInputs, h]

theorem State.responses_cons {s t : State} {i : Input} {is : List Input}
    (h : step { s with inputs := [i] } = .next t) :
    s.responses (i :: is) = t.response :: t.responses is := by
  rw [State.responses, h]

/-- One word of an accepted command, presented alone (R70, R93, R110). -/
theorem step_accepted {s : State} {q w i} (hd : decode w = .ok i)
    (hq : ¬ (q = .c ∧ s.asm.active = true)) (ha : i.acceptedOn q = true) :
    step { s with inputs := [.word q w] } = .next (Instr.effect { s with inputs := [], port := q } i) := by
  have : step { s with inputs := [.word q w] } = exec i { s with inputs := [], port := q } := by
    simp [step, State.fetch, State.takeWord, hd, hq]
  rw [this]
  rcases exec_cases i { s with inputs := [], port := q } with ⟨_, e⟩ | ⟨h, e⟩
  · exact e
  · change i.acceptedOn q = false at h; rw [ha] at h; cases h

end Sys2Proof.Machine
end

