-- ==== Sys2Proof/Tests/Slice0.lean ====
section
/-! SUPPORT. Small tests: the well-formedness smoke, the decoding of words written out from the
spec's encodings, at most two one-step tests an instruction with the results the spec's worked
examples and vectors give (95_test_vectors.md, V numbers), and for every statement with hypotheses a
concrete state and operands that meet them. -/

namespace Sys2Proof.Tests

open Sys2Proof.Machine

/-! ### Well-formedness smoke: one ill-formed term for each check -/

theorem test_wf_accepts : Command.wellFormed ⟨.c, .txasm true 2, [1, 2]⟩ = true := by decide
theorem test_wf_refuses_port_p : Command.wellFormed ⟨.p, .rd 0x033, []⟩ = false := by decide
theorem test_wf_refuses_port_c : Command.wellFormed ⟨.c, .rxb 0x55, []⟩ = false := by decide
theorem test_wf_refuses_missing_data : Command.wellFormed ⟨.c, .txasm true 2, [1]⟩ = false := by
  decide
theorem test_wf_refuses_extra_data : Command.wellFormed ⟨.p, .nop, [1]⟩ = false := by decide

theorem test_config_accepts : config.wellFormed = true := by decide
theorem test_config_refuses_slots :
    ({ config with nSlots := 1 } : Config).wellFormed = false ∧
      ({ config with nSlots := 33 } : Config).wellFormed = false := by decide
theorem test_config_refuses_capacity :
    ({ config with capacity := 31 } : Config).wellFormed = false ∧
      ({ config with capacity := 34 } : Config).wellFormed = false ∧
      ({ config with capacity := 0, lenTxOnly := 0 } : Config).wellFormed = false := by decide
theorem test_config_refuses_len_tx_only :
    ({ config with lenTxOnly := 21 } : Config).wellFormed = false ∧
      ({ config with lenTxOnly := 34 } : Config).wellFormed = false ∧
      ({ config with lenTxOnly := 12 } : Config).wellFormed = false := by decide
theorem test_config_refuses_len_trx :
    ({ config with lenTrx := 13 } : Config).wellFormed = false ∧
      ({ config with lenTrx := 2 } : Config).wellFormed = false := by decide
theorem test_config_refuses_layout_outside_payload :
    ({ config with layoutTrx := { idOff := 4, nWatts := 1, wattsOff := [3] } } : Config).wellFormed
      = false := by decide
theorem test_config_refuses_missing_watt_offset :
    ({ config with layoutTxOnly := { idOff := 1, nWatts := 3, wattsOff := [3, 5] } } :
      Config).wellFormed = false := by decide
theorem test_config_refuses_four_watts :
    ({ config with layoutTxOnly := { idOff := 1, nWatts := 4, wattsOff := [1, 3, 5, 7] } } :
      Config).wellFormed = false := by decide
theorem test_config_refuses_sync : ({ config with sync := [0x2D] } : Config).wellFormed = false := by
  decide

/-! ### Decoding, the words written out bit by bit from the encoding column of R93 -/

theorem test_decode_nop : decode 0b0000000000000000 = .ok .nop := by decide
theorem test_decode_rxb : decode 0b0001000010011010 = .ok (.rxb 0x9A) := by decide
theorem test_decode_rxtype_tx_only : decode 0b0010000000000000 = .ok (.rxtype .txOnly) := by decide
theorem test_decode_rxtype_trx : decode 0b0010000000000001 = .ok (.rxtype .trx) := by decide
theorem test_decode_rxrst : decode 0b0011000000000000 = .ok .rxrst := by decide
theorem test_decode_rd : decode 0b0100100001000110 = .ok (.rd 0x846) := by decide
theorem test_decode_txasm_sum : decode 0b0101000100000010 = .ok (.txasm true 2) := by decide
theorem test_decode_txasm_plain : decode 0b0101000011111111 = .ok (.txasm false 255) := by decide
theorem test_decode_txnext : decode 0b0110000000000000 = .ok .txnext := by decide
theorem test_decode_txrst : decode 0b0111000000000000 = .ok .txrst := by decide
/-- The reserved words of R102 and of vectors V62 to V64, V71, V72. -/
theorem test_decode_reserved :
    decode 0x0001 = .error (.mustBeZero 0) ∧ decode 0x1100 = .error (.mustBeZero 1) ∧
      decode 0x2002 = .error (.mustBeZero 2) ∧ decode 0x3001 = .error (.mustBeZero 3) ∧
      decode 0x5200 = .error (.mustBeZero 5) ∧ decode 0x6001 = .error (.mustBeZero 6) ∧
      decode 0x7FFF = .error (.mustBeZero 7) ∧ decode 0x8000 = .error (.reservedOp 8) ∧
      decode 0xFFFF = .error (.reservedOp 15) := by decide
theorem test_decodeTableWord : decodeTableWord 16 0x4033 = some (.rd 0x033) ∧
    decodeTableWord 32 0x00025101 = some (.txasm true 1) ∧ decodeTableWord 16 0x1100 = none := by
  decide
/-- V74: the high byte of a data word is ignored (R91); then R110 and R100. -/
theorem test_decodeCommand :
    decodeCommand .c [0x5101, 0xFF7E, 0x6000] = .ok (⟨.c, .txasm true 1, [0x7E]⟩, [0x6000]) ∧
      decodeCommand .p [0x5101, 0xFF7E] = .error .wrongPort ∧
      decodeCommand .c [0x5101] = .error .truncated ∧ decodeCommand .c [] = .error .noWord := by
  decide

/-! ### Small states -/

/-- The raw transmit-only-sensor frame F0 of 95_test_vectors.md. -/
def f0 : List Byte := [0x55, 0x56, 0x56, 0x56, 0xA6, 0x6A, 0x55, 0x55, 0x6A, 0x95,
  0x55, 0x55, 0x55, 0x55, 0x55, 0x56, 0x66, 0x65, 0x9A, 0x69]

/-- The raw transceiver frame T0 of 95_test_vectors.md. -/
def t0 : List Byte := [0x55, 0x59, 0x55, 0x9A, 0xA9, 0xA9, 0x55, 0x55, 0xA9, 0x69, 0xA9, 0x56]

def k0 : Fin config.nSlots := ⟨0, by decide⟩
def k1 : Fin config.nSlots := ⟨1, by decide⟩

/-- Registers holding `bs`, the ones above it unwritten. -/
def regs (n : Nat) (bs : List Byte) : Vector (Reg 8) n :=
  Vector.ofFn fun i => if i.val < bs.length then ⟨bs.getD i.val 0, true⟩ else Reg.reset

/-- A slot of type `ty` that has received `raw`. -/
def rxSlot (ty : TxType) (raw : List Byte) : Slot := { Slot.atReset with
  txType := ty
  packet := ⟨regs _ raw, BitVec.ofNat 8 (config.len ty), BitVec.ofNat 8 raw.length⟩ }

/-- After reset, `RXTYPE ty` and the raw bytes `raw` of an unfinished frame; the time is 0x12345. -/
def rxState (ty : TxType) (raw : List Byte) : State := { State.reset with
  rxTypeSel := ty, timeIn := 0x12345, slots := State.reset.slots.set 0 (rxSlot ty raw) }

/-- Slot 0 after T0 was received at time 7 (V32). -/
def okSlot : Slot := { rxSlot .trx t0 with
  health := .ok
  payload := regs _ [0x02, 0x0B, 0xEE, 0x00, 0xE6, 0xE1]
  id := ⟨3054, true⟩
  watts := #v[⟨230, true⟩, ⟨0, true⟩, ⟨0, true⟩]
  timecode := ⟨7, true⟩ }

/-- After reset, `RXTYPE TRX` and T0 (V32), but for slot 1, which a rotation has resized; port C. -/
def okState : State := { State.reset with
  rxTypeSel := .trx, port := .c, current := k1
  slots := (State.reset.slots.set 0 okSlot).set 1 (rxSlot .trx []) }

/-- A TX packet of the bytes `bs` with `k` of them emitted; port C. -/
def txState (bs : List Byte) (k : Nat) : State := { State.reset with
  port := .c, tx := ⟨regs _ bs, BitVec.ofNat 8 bs.length, BitVec.ofNat 8 k⟩ }

/-- A `TXASM c=1` of two bytes that has taken `buf`. -/
def collecting (buf : List Byte) : State := { State.reset with
  port := .c, asm := { active := true, c := true, n := 2, buf := buf } }

/-- The next state of an outcome. -/
def after (o : Host.Outcome State Fault Refusal) : State :=
  match o with
  | .next t => t
  | .fault _ => State.reset
  | .refused _ => State.reset

/-- The bytes a TX packet has stored below its length. -/
def frameOf (p : Packet) : List Byte := (List.range p.length.toNat).map p.byteAt

/-! ### One step an instruction -/

theorem test_nop : after (exec .nop (rxState .trx [0x55])) =
    { rxState .trx [0x55] with response := some 0x00 } := by decide
/-- V20: the last byte of F0. -/
theorem test_rxb_good_frame :
    let t := after (exec (.rxb 0x69) (rxState .txOnly (f0.take 19)))
    t.response = some 0x01 ∧ t.current.val = 1 ∧ (t.slot k0).health = .ok ∧
      (t.slot k0).id = ⟨4567, true⟩ ∧
      (t.slot k0).watts = #v[⟨120, true⟩, ⟨0, true⟩, ⟨340, true⟩] ∧
      (t.slot k0).timecode = ⟨0x12345, true⟩ ∧ (t.slot k0).status = 0x03 := by decide
/-- V22: the checksum's last symbols changed; the decoded bytes are written, the fields are not. -/
theorem test_rxb_bad_checksum :
    let t := after (exec (.rxb 0x6A) (rxState .txOnly (f0.take 19)))
    t.response = some 0x01 ∧ (t.slot k0).health = .bad ∧ (t.slot k0).status = 0x01 ∧
      (t.slot k0).payload[9] = ⟨0xB7, true⟩ ∧ (t.slot k0).id.written = false := by decide
/-- V31. -/
theorem test_rxtype_empty_slot :
    let t := after (exec (.rxtype .trx) State.reset)
    t.rxTypeSel = .trx ∧ (t.slot k0).txType = .trx ∧ (t.slot k0).packet.length = 12 ∧
      (t.slot k1).packet.length = 20 := by decide
/-- V35: mid-frame the slot keeps its type and length. -/
theorem test_rxtype_mid_frame :
    let t := after (exec (.rxtype .trx) (rxState .txOnly (f0.take 3)))
    t.rxTypeSel = .trx ∧ (t.slot k0).txType = .txOnly ∧ (t.slot k0).packet.length = 20 ∧
      (t.slot k0).packet.cursor = 3 := by decide
/-- V36: the cursor returns to 0 and the raw bytes stay. -/
theorem test_rxrst :
    let t := after (exec .rxrst (rxState .txOnly (f0.take 7)))
    (t.slot k0).packet.cursor = 0 ∧ (t.slot k0).packet.byteAt 4 = 0xA6 ∧
      t.current.val = 0 := by decide
/-- V32: STATUS 0x13, and the low byte of the identifier 0x0BEE. -/
theorem test_rd_slot :
    (after (exec (.rd 0x033) okState)).response = some 0x13 ∧
      (after (exec (.rd 0x034) okState)).response = some 0xEE := by decide
/-- U2: the identifier after reset is unspecified, the next free value. -/
theorem test_rd_unwritten :
    (after (exec (.rd 0x034) { State.reset with port := .c })).response =
      some (Config.freeByte 0) := rfl
/-- V43: the checksum of the empty payload is 0x00. -/
theorem test_txasm_empty :
    let t := after (exec (.txasm true 0) (txState [] 0))
    frameOf t.tx = [0xAA, 0xAA, 0xAA, 0x2D, 0xD4, 0x00, 0x40, 0x00] ∧
      t.asm.active = false := by decide
/-- V75: the last data word of `TXASM c=1, [01 02]`. -/
theorem test_txasm_last_data_word :
    let t := after (step { collecting [1] with inputs := [.word .c 0xFF02] })
    frameOf t.tx = [0xAA, 0xAA, 0xAA, 0x2D, 0xD4, 1, 2, 3, 0x40, 0x00] ∧ t.asm.active = false := by
  decide
/-- V52: after `TXRST` the first byte again. -/
theorem test_txnext :
    let t := after (exec .txnext (txState [0xAA, 0x2D] 0))
    t.response = some 0xAA ∧ t.tx.cursor = 1 := by decide
/-- V51: no register changes and the response is the next free value. -/
theorem test_txnext_drained :
    (after (exec .txnext (txState [0xAA] 1))).response = some (Config.freeByte 0) := rfl
theorem test_txrst :
    let t := after (exec .txrst (txState [0xAA, 0x2D] 2))
    t.tx.cursor = 0 ∧ t.tx.length = 2 ∧ t.response = some 0x00 := by decide
/-- V65 and V67: a command on the wrong port. -/
theorem test_wrong_port :
    (after (exec (.rd 0x033) { okState with port := .p })).response = some 0x00 ∧
      ((after (exec (.rxb 0x55) { State.reset with port := .c })).slot k0).packet.cursor = 0 := by
  decide
/-- A word placed where the next step takes it runs there: `RXTYPE TRX` on port P, and on port C the
header of a `TXASM` of one byte, whose data word follows. -/
theorem test_withFetchWord :
    (after (step (State.reset.withFetchWord 16 0x2001))).rxTypeSel = .trx ∧
      (after (step (State.reset.withFetchWord 16 0x5101))).inputs = [.word .c 0] := by decide

/-! ### Witnesses: the hypotheses of each statement that has some can be met -/

theorem witness_DecodedWordIsItsEncoding :
    ∃ (w : Word) (i : Instr), decode w = .ok i :=
  ⟨0x4FFF, .rd 0xFFF, by decide⟩

theorem witness_CommandReadsBackFromItsWords :
    ∃ k : Command, k.wellFormed = true :=
  ⟨⟨.c, .txasm true 2, [1, 2]⟩, by decide⟩

/-- A word at the edge of every row, and reserved words next to them. -/
theorem witness_DecoderFollowsOpcodeMap :
    (0x0000 : Word) &&& 0xFFFF = 0x0000 ∧ (0x10FF : Word) &&& 0xFF00 = 0x1000 ∧
      (0x2001 : Word) &&& 0xFFFE = 0x2000 ∧ (0x3000 : Word) &&& 0xFFFF = 0x3000 ∧
      (0x4FFF : Word) &&& 0xF000 = 0x4000 ∧ (0x51FF : Word) &&& 0xFE00 = 0x5000 ∧
      (0x6000 : Word) &&& 0xFFFF = 0x6000 ∧ (0x7000 : Word) &&& 0xFFFF = 0x7000 ∧
      ([(0x0001 : Word), 0x1100, 0x2002, 0x3FFF, 0x5200, 0x6001, 0x7FFF, 0x8000, 0xFFFF].all fun w =>
        [((0xFFFF, 0x0000) : Word × Word), (0xFF00, 0x1000), (0xFFFE, 0x2000), (0xFFFF, 0x3000),
          (0xF000, 0x4000), (0xFE00, 0x5000), (0xFFFF, 0x6000), (0xFFFF, 0x7000)].all fun r =>
            w &&& r.1 != r.2) = true := by decide

theorem witness_StepRunsTheDecodedInstruction :
    ∃ (s : State) (q : Port) (w : Word) (rest : List Input) (i : Instr),
      s.inputs = .word q w :: rest ∧ decode w = .ok i ∧ ¬ (q = .c ∧ s.asm.active = true) :=
  ⟨{ State.reset with inputs := [.word .c 0x4033] }, .c, 0x4033, [], .rd 0x033, by decide⟩

/-- Both a data word that is not the last and the last one. -/
theorem witness_DataWordIsCollected :
    ∀ b ∈ [[], [(1 : Byte)]], ∃ (s : State) (w : Word) (rest : List Input),
      s.inputs = .word .c w :: rest ∧ s.asm.active = true ∧ s.asm.n = 2 ∧ s.asm.buf = b := by
  intro b _
  exact ⟨{ collecting b with inputs := [.word .c 0x6000] }, 0x6000, [], rfl, rfl, rfl, rfl⟩

theorem witness_ReservedWordIsNoOp :
    ∃ (s : State) (q : Port) (w : Word) (rest : List Input),
      s.inputs = .word q w :: rest ∧ ¬ (q = .c ∧ s.asm.active = true) ∧
      (w &&& 0xFFFF ≠ 0x0000 ∧ w &&& 0xFF00 ≠ 0x1000 ∧ w &&& 0xFFFE ≠ 0x2000 ∧
        w &&& 0xFFFF ≠ 0x3000 ∧ w &&& 0xF000 ≠ 0x4000 ∧ w &&& 0xFE00 ≠ 0x5000 ∧
        w &&& 0xFFFF ≠ 0x6000 ∧ w &&& 0xFFFF ≠ 0x7000) :=
  ⟨{ State.reset with inputs := [.word .c 0x5200] }, .c, 0x5200, [], by decide⟩

/-- Each command a port does not accept. -/
theorem witness_WrongPortCommandIsNoOp :
    (∀ i ∈ [Instr.rxb 0xFF, .rxtype .trx, .rxrst], ∃ s : State,
      s.port = .c ∧ ((∃ b, i = .rxb b) ∨ (∃ t, i = .rxtype t) ∨ i = .rxrst)) ∧
      ∀ i ∈ [Instr.rd 0xFFF, .txasm true 255, .txnext, .txrst], ∃ s : State,
        s.port = .p ∧ ((∃ a, i = .rd a) ∨ (∃ c n, i = .txasm c n) ∨ i = .txnext ∨ i = .txrst) := by
  refine ⟨fun i h => ⟨{ State.reset with port := .c }, rfl, ?_⟩, fun i h => ⟨State.reset, rfl, ?_⟩⟩
    <;> fin_cases h <;> simp

theorem witness_InputsAreTakenInOrder :
    ∃ (s t : State) (i : Input), step { s with inputs := [i] } = .next t :=
  ⟨State.reset, _, .word .p 0x1055, rfl⟩

theorem witness_BlockActsOnlyOnCommands :
    ∃ s u : State, s.inputs = [] ∧ u.inputs = [.time 7] :=
  ⟨State.reset, { State.reset with inputs := [.time 7] }, rfl, rfl⟩

theorem witness_RstInputResetsEveryRegister :
    ∃ (s : State) (rest : List Input), s.inputs = .rst :: rest :=
  ⟨{ okState with inputs := [.rst] }, [], rfl⟩

/-- A step that completes a packet. -/
theorem witness_StepKeepsInvariants :
    ∃ s t : State, s.Inv ∧ step s = .next t :=
  ⟨{ rxState .trx (t0.take 11) with inputs := [.word .p 0x1056] }, _, by decide, rfl⟩

theorem witness_StepKeepsMeaningfulRegistersWritten :
    ∃ s t : State, s.Inv ∧ s.Written ∧ step s = .next t :=
  ⟨{ rxState .trx (t0.take 11) with inputs := [.word .p 0x1056] }, _, by decide, by decide, rfl⟩

/-- Slot 0 after T0, and the last offset of each range. -/
theorem witness_OkSlotMeaningfulReadsAreSpecified :
    okState.Inv ∧ okState.Written ∧ (okState.slot k0).isOk = true ∧ (0x30 ≤ 0x3F ∧ 0x3F < 0x40) ∧
      0x0B < (okState.slot k0).packet.length.toNat ∧
      (0x20 ≤ 0x25 ∧ 0x25 < 0x20 + (okState.slot k0).packet.length.toNat / 2) := by decide

theorem witness_HealthIsDecidedOncePerPacket :
    ∃ s t : State, s.Inv ∧ s.inputs.head? ≠ some .rst ∧ step s = .next t :=
  ⟨{ rxState .trx (t0.take 11) with inputs := [.word .p 0x1056] }, _, by decide, by decide, rfl⟩

theorem witness_NopOnlyResponds :
    ∀ b ∈ [[], [(1 : Byte)]], ∃ (s : State) (rest : List Input),
      s.inputs = .word .c 0x0000 :: rest ∧ s.asm.active = true ∧ s.asm.buf = b := by
  intro b _
  exact ⟨{ collecting b with inputs := [.word .c 0x0000] }, [], rfl, rfl, rfl⟩

theorem witness_RxbStoresByteMidFrame :
    ∃ s : State, s.port = .p ∧ s.cur.packet.cursor.toNat + 1 < s.cur.packet.length.toNat :=
  ⟨rxState .trx (t0.take 10), by decide⟩

theorem witness_RxbCompletesAndRotates :
    ∃ s : State, s.port = .p ∧ s.cur.packet.cursor.toNat + 1 = s.cur.packet.length.toNat :=
  ⟨rxState .trx (t0.take 11), by decide⟩

theorem witness_InvalidSymbolMakesPacketBad :
    ∃ (b : Byte) (s : State), s.Inv ∧ s.port = .p ∧
      s.cur.packet.cursor.toNat + 1 = s.cur.packet.length.toNat ∧
      ∃ e ∈ s.cur.frameWith b, validRaw e = false :=
  ⟨0x57, rxState .trx (t0.take 11), by decide⟩

theorem witness_ChecksumMismatchMakesPacketBad :
    ∃ (b : Byte) (s : State), s.Inv ∧ s.port = .p ∧
      s.cur.packet.cursor.toNat + 1 = s.cur.packet.length.toNat ∧
      frameValid (s.cur.frameWith b) = true ∧ checksumOk (decodeFrame (s.cur.frameWith b)) = false :=
  ⟨0x55, rxState .trx (t0.take 11), by decide⟩

theorem witness_GoodFrameMakesPacketOk :
    ∃ (b : Byte) (s : State), s.Inv ∧ s.port = .p ∧
      s.cur.packet.cursor.toNat + 1 = s.cur.packet.length.toNat ∧
      frameValid (s.cur.frameWith b) = true ∧ checksumOk (decodeFrame (s.cur.frameWith b)) = true :=
  ⟨0x56, rxState .trx (t0.take 11), by decide⟩

theorem witness_RxbAlwaysStoresItsByte :
    ∃ s : State, s.Inv ∧ s.port = .p :=
  ⟨State.reset, by decide⟩

theorem witness_RxbOnAFullSlotIsNoOp :
    ∃ s : State, s.port = .p ∧ s.cur.packet.length.toNat ≤ s.cur.packet.cursor.toNat :=
  ⟨rxState .trx t0, by decide⟩

/-- An empty current slot and one that holds bytes. -/
theorem witness_RxtypeTellsTheType :
    ∃ s u : State, s.port = .p ∧ s.cur.packet.cursor = 0 ∧ u.port = .p ∧
      u.cur.packet.cursor ≠ 0 :=
  ⟨State.reset, rxState .trx (t0.take 1), by decide⟩

theorem witness_RxrstEmptiesTheCurrentSlot :
    ∃ s : State, s.port = .p ∧ s.Inv :=
  ⟨rxState .trx (t0.take 7), by decide⟩

/-- A slot whose registers are written and one whose are not. -/
theorem witness_RdReadsSlotWindow :
    ∃ (s : State) (k j : Fin config.nSlots), s.port = .c ∧ (s.slot k).id.written = true ∧
      (s.slot j).id.written = false :=
  ⟨okState, k0, k1, by decide⟩

/-- A written and an unwritten byte, and the last reserved addresses. -/
theorem witness_RdReadsTxAndGlobalWindows :
    ∃ s : State, s.port = .c ∧ s.tx.bytes[0].written = true ∧ s.tx.bytes[31].written = false ∧
      (0x823 ≤ 0x83F ∧ 0x83F < 0x840) ∧ 0x847 ≤ 0x87F ∧ 0x87F < 0x880 :=
  ⟨txState [0xAA] 0, by decide, by decide, by decide, by omega⟩

/-- Both ends of each range. -/
theorem witness_RdOfUnmappedAddressReadsZero :
    ({ State.reset with port := .c } : State).port = .c ∧
      (0x40 * config.nSlots ≤ (0x140#12).toNat ∧ (0x140#12).toNat < 0x800 ∧
        (0x7FF#12).toNat < 0x800) ∧
      (0x823 ≤ (0x823#12).toNat ∧ (0x83F#12).toNat < 0x840) ∧ 0x847 ≤ (0x847#12).toNat ∧
      0x847 ≤ (0xFFF#12).toNat := by decide

theorem witness_TxasmHeaderStartsAssembly :
    ∃ (s : State) (n m : Byte), s.port = .c ∧ n = 0 ∧ m ≠ 0 :=
  ⟨txState [] 0, 0, 255, by decide⟩

/-- V75. -/
theorem witness_TxasmIsAtomicUnderInterleaving :
    ∃ (s : State) (ins : List Input) (c : Bool) (n : Byte) (ds : List Word),
      s.asm.active = false ∧ Input.rst ∉ ins ∧ ds.length = n.toNat ∧
      ins.filterMap (Input.wordOn .c) = encode (.txasm c n) :: ds :=
  ⟨State.reset, [.word .c 0x5102, .word .c 0x0001, .word .p 0x1055, .time 9, .word .c 0x0002], true,
    2, [0x0001, 0x0002], by decide⟩

theorem witness_UnfinishedTxasmLeavesTxPacket :
    ∃ (s : State) (ins : List Input) (c : Bool) (n : Byte) (ds : List Word),
      s.asm.active = false ∧ Input.rst ∉ ins ∧ ds.length < n.toNat ∧
      ins.filterMap (Input.wordOn .c) = encode (.txasm c n) :: ds :=
  ⟨State.reset, [.word .c 0x5102, .word .c 0x6000, .word .p 0x1055], true, 2, [0x6000], by decide⟩

theorem witness_TxnextEmitsTheNextByte :
    ∃ s : State, s.tx.Inv ∧ s.port = .c ∧ s.tx.cursor.toNat < s.tx.length.toNat :=
  ⟨txState [0xAA, 0x2D] 1, by decide⟩

theorem witness_TxnextOnDrainedPacketChangesNothing :
    ∃ s : State, s.port = .c ∧ s.tx.cursor = s.tx.length :=
  ⟨txState [0xAA, 0x2D] 2, by decide⟩

theorem witness_TxrstRewindsTheTxPacket :
    ∃ s : State, s.port = .c :=
  ⟨txState [0xAA, 0x2D] 2, rfl⟩

theorem witness_DrainEmitsTheRemainingBytes :
    ∃ s : State, s.tx.Inv ∧ s.asm.active = false :=
  ⟨txState [0xAA, 0x2D] 1, by decide⟩

theorem witness_AppendStoresWhatFits :
    ∃ p : Packet, p.Inv ∧ p.cursor.toNat < p.length.toNat :=
  ⟨(txState [1, 2, 3, 4] 2).tx, by decide⟩

/-- V8. -/
theorem witness_ModularSumIsSumMod256 :
    ∃ bs cs : List Byte, bs.Perm cs ∧ bs ≠ cs :=
  ⟨[0x12, 0x34], [0x34, 0x12], by decide⟩

theorem witness_FrameIsReceivedAndJudged :
    ∃ (s : State) (raw : List Byte), s.Inv ∧ s.cur.packet.cursor = 0 ∧
      raw.length = s.cur.packet.length.toNat :=
  ⟨rxState .trx [], t0, by decide⟩

theorem witness_SingleBitErrorIsCaught :
    ∃ (s : State) (raw : List Byte) (i b : Nat), s.Inv ∧ s.cur.packet.cursor = 0 ∧
      raw.length = s.cur.packet.length.toNat ∧ frameValid raw = true ∧ i < raw.length ∧ b < 8 :=
  ⟨rxState .trx [], t0, 11, 7, by decide⟩

theorem witness_InvertedSymbolIsCaught :
    ∃ (s : State) (raw : List Byte) (i m : Nat), s.Inv ∧ s.cur.packet.cursor = 0 ∧
      raw.length = s.cur.packet.length.toNat ∧ frameValid raw = true ∧
      checksumOk (decodeFrame raw) = true ∧ i < raw.length ∧ m < 4 :=
  ⟨rxState .trx [], t0, 11, 3, by decide⟩

theorem witness_TransmittedPayloadIsReceivedBack :
    ∃ (s : State) (ty : TxType) (payload : List Byte), s.Inv ∧ s.asm.active = false ∧
      s.cur.packet.cursor = 0 ∧ s.cur.txType = ty ∧ payload.length + 1 = config.dlen ty :=
  ⟨rxState .trx [], .trx, [0x02, 0x0B, 0xEE, 0x00, 0xE6], by decide⟩

theorem witness_EachPortWritesOnlyItsSide :
    ∀ q : Port, ∃ (s t : State) (w : Word) (rest : List Input),
      s.inputs = .word q w :: rest ∧ step s = .next t := by
  intro q
  cases q
  · exact ⟨{ State.reset with inputs := [.word .p 0x1055] }, _, 0x1055, [], rfl, rfl⟩
  · exact ⟨{ State.reset with inputs := [.word .c 0x5102] }, _, 0x5102, [], rfl, rfl⟩

/-- The completed slot 0 is four rotations ahead of the current slot 1. -/
theorem witness_SlotIsKeptUntilThePoolWraps :
    ∃ (s t : State) (ins : List Input) (k : Fin config.nSlots), Input.rst ∉ ins ∧
      s.completions ins < s.distance k ∧ s.runInputs ins = some t :=
  ⟨okState, after (step { okState with inputs := [.word .p 0x1055] }), [.word .p 0x1055], k0,
    by decide, by decide, rfl⟩

theorem witness_StepWritesOnlyCurrentAndNextSlot :
    ∃ s t : State, s.inputs.head? ≠ some .rst ∧ step s = .next t :=
  ⟨{ State.reset with inputs := [.word .p 0x1055] }, _, by decide, rfl⟩

end Sys2Proof.Tests
end

section
/-! PROOFS. The scope of the block (spec 00_scope.md). -/

namespace Sys2Proof.Machine

/-- Settles O12: with nothing presented (R3) the step is `step_idle`, and with a change of `time_in`
(R21) it is `step_time`. -/
theorem blockActsOnlyOnCommands : Obligations.BlockActsOnlyOnCommands := by
  intro s
  constructor
  case left =>
    intro hidle
    exact step_idle hidle
  case right =>
    intro t rest htime
    exact step_time htime

end Sys2Proof.Machine
end

section
/-! PROOFS. The STATUS byte of a slot (spec 10_state.md R38; 20_memory.md R63). -/

namespace Sys2Proof.Machine

/-! ### The flags -/

theorem Slot.isDone_iff (sl : Slot) : sl.isDone = true ↔ sl.packet.cursor = sl.packet.length :=
  sl.packet.done_iff

theorem Slot.isOk_iff (sl : Slot) : sl.isOk = true ↔ sl.health = .ok := by
  simp [Slot.isOk]

theorem Slot.payloadAt_fin (sl : Slot) (j : Fin config.dcap) :
    sl.payloadAt j.val = sl.payload[j].value := by
  simp [Slot.payloadAt]

theorem Slot.isPairing_iff (sl : Slot) :
    sl.isPairing = true ↔ sl.health = .ok ∧ sl.payload[0].value = config.pairMarker := by
  have hfirst : sl.payloadAt 0 = sl.payload[0].value := sl.payloadAt_fin ⟨0, by decide⟩
  simp [Slot.isPairing, Slot.isOk_iff, hfirst]

/-- R28: TRX is encoded as 1. -/
theorem typeBit_iff (t : TxType) : t.bit.getLsbD 0 = true ↔ t = .trx := by
  cases t <;> decide

/-- The layout of STATUS (R63), least significant bit first; every bit not listed is 0. -/
theorem Slot.status_getLsbD (sl : Slot) (i : Nat) :
    sl.status.getLsbD i =
      [sl.isDone, sl.isOk, sl.isPairing, false, sl.txType.bit.getLsbD 0].getD i false := by
  simp only [Slot.status, BitVec.getLsbD_append]
  rcases i with _ | _ | _ | _ | _ | i <;> simp

/-- Settles O35: `Slot.status_getLsbD` places the flags, and each flag has its own equivalence. -/
theorem statusByteHoldsTheFlags : Obligations.StatusByteHoldsTheFlags := by
  intro sl
  simp only [Slot.status_getLsbD]
  exact ⟨sl.isDone_iff, sl.isOk_iff, sl.isPairing_iff, typeBit_iff sl.txType, rfl, rfl, rfl, rfl⟩

end Sys2Proof.Machine
end

section
/-! PROOFS. The split of the state between the two ports (spec 10_state.md R40; 20_memory.md R71). -/

namespace Sys2Proof.Machine

/-! ### What each port's commands read and write -/

/-- Everything the effect of a port P command on the receive side depends on: the receive side itself
and the sampled input `time_in` (R152). -/
def State.rxView (s : State) :
    (Vector Slot config.nSlots × Fin config.nSlots × TxType) × BitVec 32 :=
  (s.rxSide, s.timeIn)

theorem State.rxView_eq_iff {s t : State} :
    s.rxView = t.rxView ↔ s.slots = t.slots ∧ s.current = t.current ∧
      s.rxTypeSel = t.rxTypeSel ∧ s.timeIn = t.timeIn := by
  simp [State.rxView, State.rxSide, and_assoc]

theorem State.rxSide_eq_of_rxView_eq {s t : State} (h : s.rxView = t.rxView) :
    s.rxSide = t.rxSide :=
  congrArg Prod.fst h

theorem State.txSide_eq_iff {s t : State} : s.txSide = t.txSide ↔ s.tx = t.tx ∧ s.asm = t.asm := by
  simp [State.txSide]

theorem State.slot_congr {s t : State} (h : s.slots = t.slots) (k : Fin config.nSlots) :
    s.slot k = t.slot k := by
  simp [State.slot, h]

theorem State.cur_congr {s t : State} (hslots : s.slots = t.slots) (hcur : s.current = t.current) :
    s.cur = t.cur := by
  rw [State.cur, State.cur, hcur, State.slot_congr hslots]

/-! ### The frame of each operation -/

@[simp] theorem State.noOp_rxView (s : State) : s.noOp.rxView = s.rxView := rfl
@[simp] theorem State.noOp_txSide (s : State) : s.noOp.txSide = s.txSide := rfl
@[simp] theorem State.respond_rxView (s : State) (b : Byte) : (s.respond b).rxView = s.rxView := rfl
@[simp] theorem State.respond_txSide (s : State) (b : Byte) : (s.respond b).txSide = s.txSide := rfl

@[simp] theorem State.respondWith_rxView (s : State) (r : Option Byte) :
    (s.respondWith r).rxView = s.rxView := by
  cases r <;> rfl

@[simp] theorem State.respondWith_txSide (s : State) (r : Option Byte) :
    (s.respondWith r).txSide = s.txSide := by
  cases r <;> rfl

@[simp] theorem State.bufAppend_txSide (s : State) (b : Byte) : (s.bufAppend b).txSide = s.txSide := by
  rcases s.bufAppend_cases b with ⟨-, -, e⟩ | ⟨-, e⟩ <;> rw [e] <;> rfl

@[simp] theorem State.tellType_txSide (s : State) (t : TxType) : (s.tellType t).txSide = s.txSide := by
  rcases s.tellType_cases t with ⟨-, e⟩ | ⟨-, e⟩ <;> rw [e] <;> rfl

@[simp] theorem State.startAssembly_rxView (s : State) (c : Bool) (n : Byte) :
    (s.startAssembly c n).rxView = s.rxView := by
  rcases s.startAssembly_cases c n with ⟨-, e⟩ | ⟨-, e⟩ <;> rw [e] <;> rfl

@[simp] theorem State.takeDataWord_rxView (s : State) (w : Word) :
    (s.takeDataWord w).rxView = s.rxView := by
  rcases s.takeDataWord_cases w with ⟨-, e⟩ | ⟨-, e⟩ <;> rw [e] <;> rfl

@[simp] theorem State.emitNext_rxView (s : State) : s.emitNext.rxView = s.rxView := by
  rcases s.emitNext_cases with ⟨-, e⟩ | ⟨-, e⟩ <;> rw [e] <;> rfl

/-- A command that port C accepts writes nothing of the receive side (R40). -/
theorem Instr.effect_rxView {i : Instr} (h : i.acceptedOn .c = true) (s : State) :
    (Instr.effect s i).rxView = s.rxView := by
  cases i with
  | nop => rfl
  | rxb b => cases h
  | rxtype t => cases h
  | rxrst => cases h
  | rd a => exact s.respondWith_rxView _
  | txasm c n => exact s.startAssembly_rxView c n
  | txnext => exact s.emitNext_rxView
  | txrst => rfl

/-- A command that port P accepts writes nothing of the transmit side (R40). -/
theorem Instr.effect_txSide {i : Instr} (h : i.acceptedOn .p = true) (s : State) :
    (Instr.effect s i).txSide = s.txSide := by
  cases i with
  | nop => rfl
  | rxb b => exact s.bufAppend_txSide b
  | rxtype t => exact s.tellType_txSide t
  | rxrst => rfl
  | rd a => cases h
  | txasm c n => cases h
  | txnext => cases h
  | txrst => cases h

/-! ### The effect on one side depends on that side alone -/

theorem State.bufAppend_rxView_congr {s u : State} (h : s.rxView = u.rxView) (b : Byte) :
    (s.bufAppend b).rxView = (u.bufAppend b).rxView := by
  obtain ⟨hslots, hcur, hsel, htime⟩ := State.rxView_eq_iff.1 h
  have hc : s.cur = u.cur := State.cur_congr hslots hcur
  have hn := State.slot_congr hslots (nextSlot u.current)
  rcases s.bufAppend_cases b with ⟨hs, -, e⟩ | ⟨hs, e⟩ <;>
    rcases u.bufAppend_cases b with ⟨hu, -, e'⟩ | ⟨hu, e'⟩
  · rw [e, e', State.rxView_eq_iff]
    simp [hslots, hcur, hsel, htime, hc, hn]
  · rw [hc, hu] at hs; cases hs
  · rw [hc, hu] at hs; cases hs
  · rw [e, e', State.rxView_eq_iff]
    simp [State.setCur, State.setSlot, hslots, hcur, hsel, htime, hc]

theorem State.tellType_rxView_congr {s u : State} (h : s.rxView = u.rxView) (t : TxType) :
    (s.tellType t).rxView = (u.tellType t).rxView := by
  obtain ⟨hslots, hcur, -, htime⟩ := State.rxView_eq_iff.1 h
  have hc : s.cur = u.cur := State.cur_congr hslots hcur
  rcases s.tellType_cases t with ⟨hs, e⟩ | ⟨hs, e⟩ <;>
    rcases u.tellType_cases t with ⟨hu, e'⟩ | ⟨hu, e'⟩
  · rw [e, e', State.rxView_eq_iff]
    simp [State.setCur, State.setSlot, hslots, hcur, htime, hc]
  · rw [hc] at hs; exact absurd hs hu
  · rw [hc] at hs; exact absurd hu hs
  · rw [e, e', State.rxView_eq_iff]
    exact ⟨hslots, hcur, rfl, htime⟩

theorem State.rxResetCur_rxView_congr {s u : State} (h : s.rxView = u.rxView) :
    (s.setCur (s.cur.rxReset s.rxTypeSel)).rxView = (u.setCur (u.cur.rxReset u.rxTypeSel)).rxView := by
  obtain ⟨hslots, hcur, hsel, htime⟩ := State.rxView_eq_iff.1 h
  rw [State.rxView_eq_iff]
  simp [State.setCur, State.setSlot, hslots, hcur, hsel, htime, State.cur_congr hslots hcur]

theorem State.startAssembly_txSide_congr {s u : State} (h : s.txSide = u.txSide) (c : Bool)
    (n : Byte) : (s.startAssembly c n).txSide = (u.startAssembly c n).txSide := by
  obtain ⟨htx, hasm⟩ := State.txSide_eq_iff.1 h
  rw [State.txSide_eq_iff]
  rcases s.startAssembly_cases c n with ⟨hs, e⟩ | ⟨hs, e⟩ <;>
    rcases u.startAssembly_cases c n with ⟨hu, e'⟩ | ⟨hu, e'⟩
  · simp [e, e', htx, hasm]
  · exact absurd hs hu
  · exact absurd hu hs
  · simp [e, e', htx]

theorem State.takeDataWord_txSide_congr {s u : State} (h : s.txSide = u.txSide) (w : Word) :
    (s.takeDataWord w).txSide = (u.takeDataWord w).txSide := by
  obtain ⟨htx, hasm⟩ := State.txSide_eq_iff.1 h
  rw [State.txSide_eq_iff]
  rcases s.takeDataWord_cases w with ⟨hs, e⟩ | ⟨hs, e⟩ <;>
    rcases u.takeDataWord_cases w with ⟨hu, e'⟩ | ⟨hu, e'⟩
  · simp [e, e', htx, hasm]
  · rw [hasm] at hs; exact absurd hs hu
  · rw [hasm] at hs; exact absurd hu hs
  · simp [e, e', htx, hasm]

theorem State.emitNext_txSide_congr {s u : State} (h : s.txSide = u.txSide) :
    s.emitNext.txSide = u.emitNext.txSide := by
  obtain ⟨htx, hasm⟩ := State.txSide_eq_iff.1 h
  rw [State.txSide_eq_iff]
  rcases s.emitNext_cases with ⟨hs, e⟩ | ⟨hs, e⟩ <;>
    rcases u.emitNext_cases with ⟨hu, e'⟩ | ⟨hu, e'⟩
  · simp [e, e', htx, hasm]
  · rw [htx, hu] at hs; cases hs
  · rw [htx, hu] at hs; cases hs
  · simp [e, e', htx, hasm]

/-- What a command leaves on the receive side depends on the receive side and `time_in` alone. -/
theorem Instr.effect_rxView_congr {s u : State} (h : s.rxView = u.rxView) (i : Instr) :
    (Instr.effect s i).rxView = (Instr.effect u i).rxView := by
  have frame (hi : i.acceptedOn .c = true) :
      (Instr.effect s i).rxView = (Instr.effect u i).rxView := by
    rw [Instr.effect_rxView hi, Instr.effect_rxView hi, h]
  cases i with
  | rxb b => exact State.bufAppend_rxView_congr h b
  | rxtype t => exact State.tellType_rxView_congr h t
  | rxrst => exact State.rxResetCur_rxView_congr h
  | nop => exact frame rfl
  | rd a => exact frame rfl
  | txasm c n => exact frame rfl
  | txnext => exact frame rfl
  | txrst => exact frame rfl

/-- What a command leaves on the transmit side depends on the transmit side alone. -/
theorem Instr.effect_txSide_congr {s u : State} (h : s.txSide = u.txSide) (i : Instr) :
    (Instr.effect s i).txSide = (Instr.effect u i).txSide := by
  have frame (hi : i.acceptedOn .p = true) :
      (Instr.effect s i).txSide = (Instr.effect u i).txSide := by
    rw [Instr.effect_txSide hi, Instr.effect_txSide hi, h]
  cases i with
  | txasm c n => exact State.startAssembly_txSide_congr h c n
  | txnext => exact State.emitNext_txSide_congr h
  | txrst =>
    obtain ⟨htx, hasm⟩ := State.txSide_eq_iff.1 h
    exact State.txSide_eq_iff.2 ⟨congrArg Packet.rewind htx, hasm⟩
  | rd a =>
    exact (s.respondWith_txSide _).trans (h.trans (u.respondWith_txSide _).symm)
  | nop => exact frame rfl
  | rxb b => exact frame rfl
  | rxtype t => exact frame rfl
  | rxrst => exact frame rfl

/-! ### The step as a function of its input -/

/-- What a word that is no data word does on the port it came on: the effect of the command it
decodes to where the port accepts it, else nothing (R102, R110). -/
def State.commandWord (s : State) (q : Port) (w : Word) : State :=
  match decode w with
  | .ok i => if i.acceptedOn q then Instr.effect s i else s.noOp
  | .error _ => s.noOp

/-- What one input does to the block; `step_cons` ties it to `step`. -/
def State.takeInput (s : State) : Input → State
  | .rst => s.applyRst
  | .time t => { s with timeIn := t, response := none }
  | .word q w =>
    if q = .c ∧ s.asm.active = true then State.takeDataWord { s with port := q } w
    else State.commandWord { s with port := q } q w

theorem State.commandWord_cases (s : State) (q : Port) (w : Word) :
    (∃ i, i.acceptedOn q = true ∧ s.commandWord q w = Instr.effect s i) ∨
      s.commandWord q w = s.noOp := by
  rcases hd : decode w with e | i
  · exact .inr (by simp [State.commandWord, hd])
  · by_cases ha : i.acceptedOn q = true
    · exact .inl ⟨i, ha, by simp [State.commandWord, hd, ha]⟩
    · exact .inr (by simp [State.commandWord, hd, ha])

theorem step_command {s : State} {q : Port} {w : Word} {rest : List Input}
    (h : s.inputs = .word q w :: rest) (hq : ¬ (q = .c ∧ s.asm.active = true)) :
    step s = .next (State.commandWord { s with inputs := rest, port := q } q w) := by
  rcases hd : decode w with e | i
  · rw [step_reserved h hq hd]
    simp [State.commandWord, hd]
  · have hrun : step s = exec i { s with inputs := rest, port := q } := by
      simp [step, State.fetch, State.takeWord, h, hq, hd]
    rw [hrun]
    rcases exec_cases i { s with inputs := rest, port := q } with ⟨ha, e⟩ | ⟨ha, e⟩
    · have ha : i.acceptedOn q = true := ha
      rw [e]; simp [State.commandWord, hd, ha]
    · have ha : i.acceptedOn q = false := ha
      rw [e]; simp [State.commandWord, hd, ha]

theorem State.takeInput_data {s : State} (ha : s.asm.active = true) (w : Word) :
    s.takeInput (.word .c w) = State.takeDataWord { s with port := .c } w :=
  if_pos ⟨rfl, ha⟩

theorem State.takeInput_command {s : State} {q : Port} (hq : ¬ (q = .c ∧ s.asm.active = true))
    (w : Word) : s.takeInput (.word q w) = State.commandWord { s with port := q } q w :=
  if_neg hq

/-- A step always answers, with what its first input does (R220). -/
theorem step_cons {s : State} {i : Input} {rest : List Input} (h : s.inputs = i :: rest) :
    step s = .next (State.takeInput { s with inputs := rest } i) := by
  cases i with
  | rst => exact step_rst h
  | time t => exact step_time h
  | word q w =>
    by_cases hq : q = .c ∧ s.asm.active = true
    · obtain ⟨rfl, ha⟩ := hq
      rw [step_data h ha, State.takeInput_data (by exact ha)]
    · rw [step_command h hq, State.takeInput_command (by exact hq)]

/-! ### One input, seen from one side -/

/-- A word on port C leaves the receive side (R40). -/
theorem State.takeInput_rxView_of_portC {s : State} {i : Input} (h : i.onPort .c = true) :
    (s.takeInput i).rxView = s.rxView := by
  cases i with
  | rst => cases h
  | time t => cases h
  | word q w =>
    obtain rfl : q = .c := by simpa [Input.onPort] using h
    by_cases ha : s.asm.active = true
    · rw [State.takeInput_data ha]
      exact State.takeDataWord_rxView { s with port := .c } w
    · rw [State.takeInput_command (by simp [ha])]
      rcases State.commandWord_cases { s with port := .c } .c w with ⟨i, hi, e⟩ | e
      · rw [e]; exact Instr.effect_rxView hi _
      · rw [e]; rfl

/-- A word on port P leaves the transmit side (R40). -/
theorem State.takeInput_txSide_of_portP {s : State} {i : Input} (h : i.onPort .p = true) :
    (s.takeInput i).txSide = s.txSide := by
  cases i with
  | rst => cases h
  | time t => cases h
  | word q w =>
    obtain rfl : q = .p := by simpa [Input.onPort] using h
    rw [State.takeInput_command (by simp)]
    rcases State.commandWord_cases { s with port := .p } .p w with ⟨i, hi, e⟩ | e
    · rw [e]; exact Instr.effect_txSide hi _
    · rw [e]; rfl

/-- Settles O52: the step is `State.takeInput` of its word, which leaves the other port's side. -/
theorem eachPortWritesOnlyItsSide : Obligations.EachPortWritesOnlyItsSide := by
  intro s t q w rest hin hstep
  rw [step_cons hin, Host.Outcome.next.injEq] at hstep
  subst hstep
  constructor
  · rintro rfl
    exact State.takeInput_txSide_of_portP rfl
  · rintro rfl
    exact State.rxSide_eq_of_rxView_eq (State.takeInput_rxView_of_portC rfl)

theorem State.commandWord_rxView_congr {s u : State} (h : s.rxView = u.rxView) (q : Port)
    (w : Word) : (s.commandWord q w).rxView = (u.commandWord q w).rxView := by
  unfold State.commandWord
  split
  · split
    · exact Instr.effect_rxView_congr h _
    · exact h
  · exact h

theorem State.commandWord_txSide_congr {s u : State} (h : s.txSide = u.txSide) (q : Port)
    (w : Word) : (s.commandWord q w).txSide = (u.commandWord q w).txSide := by
  unfold State.commandWord
  split
  · split
    · exact Instr.effect_txSide_congr h _
    · exact h
  · exact h

/-- Off port C an input does the same to equal receive sides. -/
theorem State.takeInput_rxView_congr {s u : State} {i : Input} (hi : i.onPort .c = false)
    (h : s.rxView = u.rxView) : (s.takeInput i).rxView = (u.takeInput i).rxView := by
  cases i with
  | rst =>
    obtain ⟨-, -, -, htime⟩ := State.rxView_eq_iff.1 h
    exact State.rxView_eq_iff.2 ⟨rfl, rfl, rfl, htime⟩
  | time t =>
    obtain ⟨hslots, hcur, hsel, -⟩ := State.rxView_eq_iff.1 h
    exact State.rxView_eq_iff.2 ⟨hslots, hcur, hsel, rfl⟩
  | word q w =>
    have hq : q ≠ .c := by simpa [Input.onPort] using hi
    rw [State.takeInput_command (by simp [hq]), State.takeInput_command (by simp [hq])]
    exact State.commandWord_rxView_congr (by exact h) q w

/-- Every input does the same to equal transmit sides, whatever the receive sides. -/
theorem State.takeInput_txSide_congr {s u : State} (h : s.txSide = u.txSide) (i : Input) :
    (s.takeInput i).txSide = (u.takeInput i).txSide := by
  cases i with
  | rst => rfl
  | time t => exact h
  | word q w =>
    obtain ⟨-, hasm⟩ := State.txSide_eq_iff.1 h
    by_cases hq : q = .c ∧ u.asm.active = true
    · obtain ⟨rfl, ha⟩ := hq
      rw [State.takeInput_data ha, State.takeInput_data (by rw [hasm, ha])]
      exact State.takeDataWord_txSide_congr (by exact h) w
    · rw [State.takeInput_command hq, State.takeInput_command (by rw [hasm]; exact hq)]
      exact State.commandWord_txSide_congr (by exact h) q w

/-! ### Whole runs -/

/-- Non-interference along a run: a relation between two states that every kept input preserves on
both sides at once, and every dropped input on the left side alone, holds at the end of a run and of
the same run with the dropped inputs left out. -/
theorem State.runInputs_filter_rel {R : State → State → Prop} {keep : Input → Bool}
    (hkeep : ∀ s u i, keep i = true → R s u →
      R (State.takeInput { s with inputs := [] } i) (State.takeInput { u with inputs := [] } i))
    (hdrop : ∀ s u i, keep i = false → R s u → R (State.takeInput { s with inputs := [] } i) u)
    (ins : List Input) {s u : State} (h : R s u) :
    ∃ t v, s.runInputs ins = some t ∧ u.runInputs (ins.filter keep) = some v ∧ R t v := by
  induction ins generalizing s u with
  | nil => exact ⟨s, u, rfl, rfl, h⟩
  | cons i is ih =>
    rw [State.runInputs_cons (s := s) (step_cons rfl)]
    cases hi : keep i
    · rw [List.filter_cons_of_neg (by simp [hi])]
      exact ih (hdrop s u i hi h)
    · rw [List.filter_cons_of_pos hi, State.runInputs_cons (s := u) (step_cons rfl)]
      exact ih (hkeep s u i hi h)

/-- Settles O53, by `State.runInputs_filter_rel` with equal receive sides and equal `time_in`. -/
theorem receiveSideIgnoresPortC : Obligations.ReceiveSideIgnoresPortC := by
  intro s ins
  obtain ⟨t, u, hrun, hfiltered, heq⟩ := State.runInputs_filter_rel
    (R := fun s u => s.rxView = u.rxView) (keep := fun i => !i.onPort .c)
    (fun _ _ _ hi h => State.takeInput_rxView_congr (by simpa using hi) (by exact h))
    (fun _ _ _ hi h => (State.takeInput_rxView_of_portC (by simpa using hi)).trans h)
    ins (rfl : s.rxView = s.rxView)
  exact ⟨t, u, hrun, hfiltered, State.rxSide_eq_of_rxView_eq heq⟩

/-- Settles O54, by `State.runInputs_filter_rel` with equal transmit sides. -/
theorem transmitSideIgnoresPortP : Obligations.TransmitSideIgnoresPortP := by
  intro s ins
  exact State.runInputs_filter_rel (R := fun s u => s.txSide = u.txSide)
    (fun _ _ i _ h => State.takeInput_txSide_congr (by exact h) i)
    (fun _ _ _ hi h => (State.takeInput_txSide_of_portP (by simpa using hi)).trans h)
    ins rfl

end Sys2Proof.Machine
end

section
/-! PROOFS. The invariants of the block (spec 10_state.md R39). -/

namespace Sys2Proof.Machine

/-! ### The invariants, split between the two ports -/

/-- What R39 says of the slot that receives: it has the slot's invariants and bytes are missing. -/
def Slot.Receiving (sl : Slot) : Prop := sl.Inv ∧ sl.packet.cursor < sl.packet.length

/-- R39 for what port P writes. -/
def State.RxInv (s : State) : Prop :=
  s.cur.Receiving ∧ ∀ k, k ≠ s.current → (s.slot k).Inv ∧ (s.slot k).Parked

/-- R39 for what port C writes. -/
def State.TxInv (s : State) : Prop :=
  s.tx.Inv ∧ (s.asm.active = true → s.asm.buf.length < s.asm.n.toNat)

theorem State.inv_iff (s : State) : s.Inv ↔ s.RxInv ∧ s.TxInv := by
  constructor
  · rintro ⟨hslots, htx, hcur, hparked, hasm⟩
    exact ⟨⟨⟨hslots s.current, hcur⟩, fun k hk => ⟨hslots k, hparked k hk⟩⟩, htx, hasm⟩
  · rintro ⟨⟨⟨hinv, hcur⟩, hothers⟩, htx, hasm⟩
    refine ⟨fun k => ?_, htx, hcur, fun k hk => (hothers k hk).2, hasm⟩
    by_cases hk : k = s.current
    · exact hk ▸ hinv
    · exact (hothers k hk).1

theorem State.RxInv.congr {s t : State} (h : s.RxInv) (hview : t.rxView = s.rxView) : t.RxInv := by
  obtain ⟨hslots, hcurrent, -, -⟩ := State.rxView_eq_iff.1 hview
  obtain ⟨hcur, hothers⟩ := h
  refine ⟨State.cur_congr hslots hcurrent ▸ hcur, fun k hk => ?_⟩
  rw [State.slot_congr hslots k]
  exact hothers k (hcurrent ▸ hk)

theorem State.TxInv.congr {s t : State} (h : s.TxInv) (hside : t.txSide = s.txSide) : t.TxInv := by
  obtain ⟨htx, hasm⟩ := State.txSide_eq_iff.1 hside
  rw [State.TxInv, htx, hasm]
  exact h

/-! ### Packet records -/

theorem Packet.inv_iff (p : Packet) :
    p.Inv ↔ p.cursor.toNat ≤ p.length.toNat ∧ p.length.toNat ≤ config.capacity := by
  rw [Packet.Inv, BitVec.le_def]

theorem Packet.Inv.append {p : Packet} (h : p.Inv) (b : Byte) : (p.append b).Inv := by
  cases hr : p.hasRoom
  · rwa [Packet.append_full hr]
  · rw [Packet.inv_iff] at h ⊢
    rw [Packet.append_cursor hr, Packet.append_length]
    exact ⟨(p.hasRoom_iff).1 hr, h.2⟩

@[simp] theorem Packet.appendN_length (p : Packet) (bs : List Byte) :
    (p.appendN bs).length = p.length := by
  induction bs generalizing p with
  | nil => rfl
  | cons b bs ih => exact (ih (p.append b)).trans (p.append_length b)

theorem Packet.inv_of_cursor_zero {p : Packet} (hc : p.cursor = 0)
    (hl : p.length.toNat ≤ config.capacity) : p.Inv := by
  rw [Packet.inv_iff, hc]
  exact ⟨Nat.zero_le _, hl⟩

theorem Packet.setLength_le (p : Packet) (n : Nat) :
    (p.setLength n).length.toNat ≤ config.capacity := by
  rw [Packet.setLength_length, BitVec.toNat_ofNat]
  exact (Nat.mod_le _ _).trans (Nat.min_le_right _ _)

/-- An assembled packet is within the capacity whatever the payload: the frame is cut (R173). -/
theorem Packet.assemble_inv (p : Packet) (bs : List Byte) (c : Bool) : (p.assemble bs c).Inv := by
  refine Packet.inv_of_cursor_zero rfl ?_
  simpa [Packet.assemble] using p.rewind.setLength_le (frame bs c).length

theorem Packet.Inv.advance {p : Packet} (h : p.Inv) (hr : p.hasRoom = true) : p.advance.Inv := by
  have hlt := p.hasRoom_iff.1 hr
  have hmax := p.length.isLt
  have hnext : (p.cursor + 1).toNat = p.cursor.toNat + 1 :=
    BitVec.toNat_add_of_lt (by simpa using by omega)
  rw [Packet.inv_iff] at h ⊢
  rw [Packet.advance_cursor, Packet.advance_length, hnext]
  exact ⟨hlt, h.2⟩

/-! ### The receive side -/

theorem Slot.Receiving.health {sl : Slot} (h : sl.Receiving) : sl.health = .notChecked := by
  obtain ⟨⟨-, -, hhealth⟩, hlt⟩ := h
  exact hhealth.2 hlt

/-- An empty NotChecked slot of the length of its type receives; every type's length is positive. -/
theorem Slot.receiving_of_empty {sl : Slot} (hc : sl.packet.cursor = 0)
    (hl : sl.packet.length = BitVec.ofNat 8 (config.len sl.txType)) (hh : sl.health = .notChecked) :
    sl.Receiving := by
  have hlen : sl.packet.length.toNat = config.len sl.txType := by rw [hl, len_toNat]
  have hlt : sl.packet.cursor < sl.packet.length := by
    rw [hc, BitVec.lt_def, hlen]
    exact Nat.lt_of_lt_of_le (by decide) (config_len_pos sl.txType)
  exact ⟨⟨Packet.inv_of_cursor_zero hc (hlen ▸ config_len_le _), hlen, iff_of_true hh hlt⟩, hlt⟩

theorem Slot.rxReset_receiving (sl : Slot) (t : TxType) : (sl.rxReset t).Receiving :=
  Slot.receiving_of_empty rfl (by simp [Packet.setLength_len]) rfl

theorem Slot.Receiving.retype {sl : Slot} (h : sl.Receiving) (hc : sl.packet.cursor = 0)
    (t : TxType) : (sl.retype t).Receiving :=
  Slot.receiving_of_empty hc (by simp [Packet.setLength_len]) h.health

/-- A byte that does not complete the packet leaves the slot receiving. -/
theorem Slot.Receiving.store {sl : Slot} (h : sl.Receiving) {b : Byte}
    (hnot : sl.completes b = false) : (sl.store b).Receiving := by
  have hhealth := h.health
  obtain ⟨⟨hpacket, hlen, -⟩, hlt⟩ := h
  have hr : sl.packet.hasRoom = true := (Packet.hasRoom_iff _).2 hlt
  have hmid : sl.packet.cursor.toNat + 1 ≠ sl.packet.length.toNat := fun e => by
    simp [(sl.completes_iff b).2 e] at hnot
  have hlt' : (sl.store b).packet.cursor < (sl.store b).packet.length := by
    rw [BitVec.lt_def] at hlt ⊢
    rw [Slot.store_packet, Packet.append_cursor hr, Packet.append_length]
    omega
  exact ⟨⟨hpacket.append b, by simpa using hlen, iff_of_true hhealth hlt'⟩, hlt'⟩

/-- The byte that completes the packet leaves the slot checked, with its cursor at its length. -/
theorem Slot.Receiving.complete {sl : Slot} (h : sl.Receiving) {b : Byte}
    (hdone : sl.completes b = true) (t : BitVec 32) :
    ((sl.store b).postProcess t).Inv ∧ ((sl.store b).postProcess t).Parked := by
  obtain ⟨⟨hpacket, hlen, -⟩, hlt⟩ := h
  have hr : sl.packet.hasRoom = true := (Packet.hasRoom_iff _).2 hlt
  have hfull : (sl.packet.append b).cursor = (sl.packet.append b).length := by
    rw [← BitVec.toNat_inj, Packet.append_cursor hr, Packet.append_length]
    exact (sl.completes_iff b).1 hdone
  have hchecked : ((sl.store b).postProcess t).health ≠ .notChecked := by
    rcases (sl.store b).postProcess_health t with e | e <;> rw [e] <;> decide
  simp only [Slot.Inv, Slot.Parked, Slot.postProcess_packet, Slot.postProcess_txType,
    Slot.store_packet, Slot.store_txType, Packet.append_length]
  rw [Packet.append_length] at hfull
  refine ⟨⟨hpacket.append b, hlen, iff_of_false hchecked ?_⟩, .inl hfull⟩
  rw [hfull]
  exact BitVec.lt_irrefl _

theorem State.RxInv.setCur {s : State} (h : s.RxInv) {sl : Slot} (hsl : sl.Receiving) :
    (s.setCur sl).RxInv := by
  refine ⟨by rwa [State.cur_setCur], fun k hk => ?_⟩
  have hk : k ≠ s.current := hk
  rw [State.slot_setCur, if_neg hk.symm]
  exact h.2 k hk

theorem State.RxInv.bufAppend {s : State} (h : s.RxInv) (b : Byte) : (s.bufAppend b).RxInv := by
  obtain ⟨hcur, hothers⟩ := h
  rcases s.bufAppend_cases b with ⟨hdone, hslot, e⟩ | ⟨hnot, e⟩
  · rw [e, hslot]
    refine ⟨?_, fun k hk => ?_⟩
    · rw [State.cur, State.slot_rotated, if_pos rfl]
      exact Slot.rxReset_receiving _ _
    · have hk : k ≠ nextSlot s.current := hk
      rw [State.slot_rotated, if_neg hk.symm]
      split
      · exact hcur.complete hdone s.timeIn
      · rename_i hne
        exact hothers k (Ne.symm hne)
  · rw [e]
    have hstore : s.cur.rxAppend b s.timeIn = s.cur.store b := by
      simp [Slot.rxAppend, hnot]
    rw [hstore]
    exact State.RxInv.setCur ⟨hcur, hothers⟩ (hcur.store hnot)

theorem State.RxInv.tellType {s : State} (h : s.RxInv) (t : TxType) : (s.tellType t).RxInv := by
  rcases s.tellType_cases t with ⟨hempty, e⟩ | ⟨-, e⟩
  · rw [e]
    exact State.RxInv.setCur (s := { s with rxTypeSel := t }) h (h.1.retype hempty t)
  · rw [e]
    exact h

/-- Every command keeps the receive side's invariants; those that port C accepts do not touch it. -/
theorem State.RxInv.effect {s : State} (h : s.RxInv) (i : Instr) : (Instr.effect s i).RxInv := by
  cases i with
  | rxb b => exact (h.bufAppend b).congr (State.respond_rxView _ _)
  | rxtype t => exact (h.tellType t).congr (State.respond_rxView _ _)
  | rxrst => exact (h.setCur (Slot.rxReset_receiving _ _)).congr (State.respond_rxView _ _)
  | nop => exact h.congr (Instr.effect_rxView rfl s)
  | rd a => exact h.congr (Instr.effect_rxView rfl s)
  | txasm c n => exact h.congr (Instr.effect_rxView rfl s)
  | txnext => exact h.congr (Instr.effect_rxView rfl s)
  | txrst => exact h.congr (Instr.effect_rxView rfl s)

/-! ### The transmit side -/

theorem State.TxInv.startAssembly {s : State} (h : s.TxInv) (c : Bool) (n : Byte) :
    (s.startAssembly c n).TxInv := by
  obtain ⟨htx, hasm⟩ := h
  rcases s.startAssembly_cases c n with ⟨-, e⟩ | ⟨hn, e⟩
  · rw [e]
    exact ⟨s.tx.assemble_inv [] c, hasm⟩
  · rw [e]
    exact ⟨htx, fun _ => Nat.pos_of_ne_zero fun hz => hn (BitVec.eq_of_toNat_eq hz)⟩

/-- The collector stays short of its count: the data word that would reach it leaves the mode (R101). -/
theorem State.TxInv.takeDataWord {s : State} (h : s.TxInv) (hactive : s.asm.active = true)
    (w : Word) : (s.takeDataWord w).TxInv := by
  obtain ⟨htx, hasm⟩ := h
  rcases s.takeDataWord_cases w with ⟨-, e⟩ | ⟨hne, e⟩
  · rw [e]
    exact ⟨s.tx.assemble_inv _ _, fun hoff => by cases hoff⟩
  · rw [e]
    refine ⟨htx, fun _ => ?_⟩
    have hlt := hasm hactive
    simp only [List.length_append, List.length_singleton]
    omega

theorem State.TxInv.emitNext {s : State} (h : s.TxInv) : s.emitNext.TxInv := by
  rcases s.emitNext_cases with ⟨hr, e⟩ | ⟨-, e⟩
  · rw [e]
    exact ⟨h.1.advance hr, h.2⟩
  · rw [e]
    exact h

/-- Every command keeps the transmit side's invariants; those that port P accepts do not touch it. -/
theorem State.TxInv.effect {s : State} (h : s.TxInv) (i : Instr) : (Instr.effect s i).TxInv := by
  cases i with
  | txasm c n => exact (h.startAssembly c n).congr (State.respond_txSide _ _)
  | txnext => exact h.emitNext
  | txrst => exact ⟨Packet.inv_of_cursor_zero rfl h.1.2, h.2⟩
  | rd a => exact h.congr (s.respondWith_txSide _)
  | nop => exact h.congr (Instr.effect_txSide rfl s)
  | rxb b => exact h.congr (Instr.effect_txSide rfl s)
  | rxtype t => exact h.congr (Instr.effect_txSide rfl s)
  | rxrst => exact h.congr (Instr.effect_txSide rfl s)

/-! ### Reset and steps -/

theorem Slot.atReset_receiving : Slot.atReset.Receiving :=
  Slot.receiving_of_empty rfl rfl rfl

theorem State.reset_rxInv : State.reset.RxInv := by
  refine ⟨by rw [State.cur, State.reset_slot]; exact Slot.atReset_receiving, fun k _ => ?_⟩
  rw [State.reset_slot]
  exact ⟨Slot.atReset_receiving.1, .inr ⟨rfl, rfl⟩⟩

theorem State.reset_txInv : State.reset.TxInv :=
  ⟨Packet.inv_of_cursor_zero rfl (Nat.zero_le _), fun hoff => by cases hoff⟩

/-- Settles O17: every slot is empty and NotChecked, and the collector is inactive (R260). -/
theorem resetHasInvariants : Obligations.ResetHasInvariants :=
  State.reset.inv_iff.2 ⟨State.reset_rxInv, State.reset_txInv⟩

/-- Settles O16, by the kinds of step of `step_cases`: `rst` establishes both halves of R39, a data
word touches the transmit half alone, and a command keeps both by `effect`. -/
theorem stepKeepsInvariants : Obligations.StepKeepsInvariants := by
  intro s t hinv hstep
  rw [State.inv_iff] at hinv ⊢
  obtain ⟨hrx, htx⟩ := hinv
  rcases step_cases hstep with ⟨-, rfl⟩ | ⟨rest, -, rfl⟩ | ⟨x, rest, -, rfl⟩ |
    ⟨w, rest, -, hactive, rfl⟩ | ⟨q, w, rest, i, -, -, -, -, rfl⟩ | ⟨q, w, rest, -, -, -, rfl⟩
  · exact ⟨hrx, htx⟩
  · exact ⟨State.reset_rxInv, State.reset_txInv⟩
  · exact ⟨hrx, htx⟩
  · exact ⟨hrx.congr (State.takeDataWord_rxView _ w),
      State.TxInv.takeDataWord (by exact htx) (by exact hactive) w⟩
  · exact ⟨State.RxInv.effect (by exact hrx) i, State.TxInv.effect (by exact htx) i⟩
  · exact ⟨hrx, htx⟩

end Sys2Proof.Machine
end

section
/-! PROOFS. The order of execution and the read map (spec 20_memory.md R62 to R71). -/

namespace Sys2Proof.Machine

/-! ### The inputs behind the one a step takes -/

theorem State.commandWord_inputs (s : State) (q : Port) (w : Word) (r : List Input) :
    State.commandWord { s with inputs := r } q w = { s.commandWord q w with inputs := r } := by
  unfold State.commandWord
  split
  · split
    · exact Instr.effect_inputs _ s r
    · rfl
  · rfl

/-- What an input does is the same whatever inputs are behind it, and those stay. -/
theorem State.takeInput_inputs (s : State) (i : Input) (r : List Input) :
    State.takeInput { s with inputs := r } i = { s.takeInput i with inputs := r } := by
  cases i with
  | rst => rfl
  | time t => rfl
  | word q w =>
    by_cases hq : q = .c ∧ s.asm.active = true
    · obtain ⟨rfl, hactive⟩ := hq
      rw [State.takeInput_data (by exact hactive), State.takeInput_data hactive]
      exact State.takeDataWord_inputs { s with port := .c } w r
    · rw [State.takeInput_command (by exact hq), State.takeInput_command hq]
      exact State.commandWord_inputs { s with port := q } q w r

/-- Settles O11: both steps are `State.takeInput` of the same input, and `State.takeInput_inputs`
compares them. -/
theorem inputsAreTakenInOrder : Obligations.InputsAreTakenInOrder := by
  intro s t i rest hstep
  have hbefore (r : List Input) :
      step { s with inputs := i :: r } = .next { s.takeInput i with inputs := r } := by
    rw [step_cons rfl]
    exact congrArg _ (s.takeInput_inputs i r)
  rw [hbefore, Host.Outcome.next.injEq] at hstep
  subst hstep
  exact ⟨rfl, hbefore rest⟩

/-! ### The word a step takes -/

/-- A word that decodes is run as its command, unless port C is in data-word mode (R93, R101). -/
theorem State.takeWord_command {s : State} {q : Port} {w : Word} {i : Instr}
    (hmode : ¬ (q = .c ∧ s.asm.active = true)) (hd : decode w = .ok i) :
    s.takeWord q w = .run i { s with port := q } := by
  unfold State.takeWord
  rw [if_neg hmode, hd]

/-- Settles O6: `State.fetch` hands over the instruction by `State.takeWord_command`, and the step
runs it. -/
theorem stepRunsTheDecodedInstruction : Obligations.StepRunsTheDecodedInstruction := by
  intro s q w rest i hin hd hmode
  have hfetch : s.fetch = .run i { s with inputs := rest, port := q } := by
    unfold State.fetch
    rw [hin]
    exact State.takeWord_command (by exact hmode) hd
  rw [step, hfetch]

/-! ### What an `RD` answers, from what its address reads -/

theorem exec_rd {s : State} (hport : s.port = .c) (a : BitVec 12) :
    exec (.rd a) s = .next (s.respondWith (s.memRead a)) :=
  State.onPort_accepted hport _

theorem exec_rd_byte {s : State} (hport : s.port = .c) {a : BitVec 12} {b : Byte}
    (hread : s.memRead a = some b) : exec (.rd a) s = .next { s with response := some b } := by
  rw [exec_rd hport, hread]
  rfl

/-- A read of byte `i` of a data register (R67 a), a free value while it is unwritten (U2). -/
theorem exec_rd_reg {s : State} (hport : s.port = .c) {a : BitVec 12} {n : Nat} {r : Reg n}
    {i : Nat} (hread : s.memRead a = r.byte i) :
    exec (.rd a) s = .next (
      if r.written then { s with response := some (r.value.extractLsb' (8 * i) 8) }
      else { s with
        response := some (Config.freeByte s.freeCount), freeCount := s.freeCount + 1 }) := by
  rw [exec_rd hport, hread, State.respondWith_byte]

/-- A read of a data register of one byte is its whole value. -/
theorem exec_rd_reg8 {s : State} (hport : s.port = .c) {a : BitVec 12} {r : Reg 8}
    (hread : s.memRead a = r.byte 0) :
    exec (.rd a) s = .next (
      if r.written then { s with response := some r.value }
      else { s with
        response := some (Config.freeByte s.freeCount), freeCount := s.freeCount + 1 }) := by
  rw [exec_rd_reg hport hread, Nat.mul_zero, BitVec.extractLsb'_eq_self]

/-! ### Addresses no row names -/

/-- The reserved end of the TX window (R64). -/
theorem State.memRead_tx_reserved (s : State) {a : BitVec 12} (hlo : 0x823 ≤ a.toNat)
    (hhi : a.toNat < 0x840) : s.memRead a = some 0 := by
  have hread := s.memRead_tx (o := a.toNat - 0x800) (by omega)
  rw [Nat.add_sub_cancel' (by omega), BitVec.ofNat_toNat, BitVec.setWidth_eq] at hread
  rw [hread, s.txWindowByte_reserved (by omega)]

/-- The reserved end of the global window (R65). -/
theorem State.memRead_global_reserved (s : State) {a : BitVec 12} (hlo : 0x847 ≤ a.toNat)
    (hhi : a.toNat < 0x880) : s.memRead a = some 0 := by
  have hread := s.memRead_global (o := a.toNat - 0x840) (by omega)
  rw [Nat.add_sub_cancel' (by omega), BitVec.ofNat_toNat, BitVec.setWidth_eq] at hread
  rw [hread, s.globalByte_reserved (by omega)]

/-- Everything above the global window (R66). -/
theorem State.memRead_above (s : State) {a : BitVec 12} (ha : 0x880 ≤ a.toNat) :
    s.memRead a = some 0 := by
  unfold State.memRead
  rw [if_neg (by omega), if_neg (by omega), if_neg (by omega)]

/-- Settles O34, range by range. -/
theorem rdOfUnmappedAddressReadsZero : Obligations.RdOfUnmappedAddressReadsZero := by
  intro s a hport hrange
  apply exec_rd_byte hport
  rcases hrange with ⟨hlo, hhi⟩ | ⟨hlo, hhi⟩ | hlo
  · exact s.memRead_absent_slot hlo hhi
  · exact s.memRead_tx_reserved hlo hhi
  · rcases Nat.lt_or_ge a.toNat 0x880 with hhi | habove
    · exact s.memRead_global_reserved hlo hhi
    · exact s.memRead_above habove

/-! ### The wide registers of a slot's window (R63, R67 a) -/

theorem Slot.windowByte_id (sl : Slot) (m : Fin 2) :
    sl.windowByte (BitVec.ofNat 6 (0x34 + m.val)) = sl.id.byte m.val :=
  match m with
  | 0 | 1 => rfl

theorem Slot.windowByte_watts_low (sl : Slot) (c : Fin 3) :
    sl.windowByte (BitVec.ofNat 6 (0x36 + 2 * c.val)) = sl.watts[c].byte 0 :=
  match c with
  | 0 | 1 | 2 => rfl

theorem Slot.windowByte_watts_high (sl : Slot) (c : Fin 3) :
    sl.windowByte (BitVec.ofNat 6 (0x37 + 2 * c.val)) = sl.watts[c].byte 1 :=
  match c with
  | 0 | 1 | 2 => rfl

theorem Slot.windowByte_timecode (sl : Slot) (m : Fin 4) :
    sl.windowByte (BitVec.ofNat 6 (0x3C + m.val)) = sl.timecode.byte m.val :=
  match m with
  | 0 | 1 | 2 | 3 => rfl

/-- Settles O32: the address lies in the window of slot `k` (`State.memRead_slot`), and each offset
there names its register. -/
theorem rdReadsSlotWindow : Obligations.RdReadsSlotWindow := by
  intro s k hport sl answers answersReg
  have window {off : Nat} {r : Option Byte} (ho : off < 64)
      (hoff : sl.windowByte (BitVec.ofNat 6 off) = r) :
      s.memRead (BitVec.ofNat 12 (0x40 * k.val + off)) = r := (s.memRead_slot k ho).trans hoff
  have control {off : Nat} {b : Byte} (ho : off < 64)
      (hoff : sl.windowByte (BitVec.ofNat 6 off) = some b) : answers off b :=
    exec_rd_byte hport (window ho hoff)
  refine ⟨fun i => ?raw, fun j => ?payload, control (by decide) rfl, control (by decide) rfl,
    control (by decide) ?health, control (by decide) rfl, ?idLow, ?idHigh,
    fun c => ⟨?wattsLow, ?wattsHigh⟩, fun m => ?timecode⟩
  case raw =>
    have hi := byteIndex_lt i
    exact exec_rd_reg8 hport (window (by omega) (sl.windowByte_raw i))
  case payload =>
    have hj := payloadIndex_lt j
    exact exec_rd_reg8 hport (window (by omega) (sl.windowByte_payload j))
  case health =>
    change some sl.health.byte = some _
    cases sl.health <;> rfl
  case idLow => exact exec_rd_reg hport (window (off := 0x34) (by decide) (sl.windowByte_id 0))
  case idHigh => exact exec_rd_reg hport (window (off := 0x35) (by decide) (sl.windowByte_id 1))
  case wattsLow => exact exec_rd_reg hport (window (by omega) (sl.windowByte_watts_low c))
  case wattsHigh => exact exec_rd_reg hport (window (by omega) (sl.windowByte_watts_high c))
  case timecode => exact exec_rd_reg hport (window (by omega) (sl.windowByte_timecode m))

/-! ### The TX window and the global window -/

theorem State.txWindowByte_frame (s : State) (i : Fin config.capacity) :
    s.txWindowByte i.val = s.tx.bytes[i].byte 0 := by
  have hi := byteIndex_lt i
  unfold State.txWindowByte arrayByte
  rw [if_pos (by omega), Vector.getElem?_eq_getElem i.isLt]
  rfl

/-- TXSTATUS is 1 on a drained packet and 0 on any other (R38, R64). -/
theorem State.txStatus_eq (s : State) :
    s.txStatus = if s.tx.cursor = s.tx.length then 0x01 else 0x00 := by
  have hdone := s.tx.done_iff
  unfold State.txStatus State.txDone
  split
  case isTrue h => rw [hdone.2 h]; rfl
  case isFalse h => rw [Bool.eq_false_iff.2 fun hd => h (hdone.1 hd)]; rfl

/-- Settles O33: a named address by the window it lies in (`State.memRead_tx`,
`State.memRead_global`), a reserved one because it is unmapped (R66). -/
theorem rdReadsTxAndGlobalWindows : Obligations.RdReadsTxAndGlobalWindows := by
  intro s hport answers
  have txByte (o : Nat) {b : Byte} (ho : o < 0x40) (hb : s.txWindowByte o = some b) :
      answers (0x800 + o) b :=
    exec_rd_byte hport ((s.memRead_tx ho).trans hb)
  have globalByte (o : Nat) {b : Byte} (ho : o < 0x40) (hb : s.globalByte o = b) :
      answers (0x840 + o) b :=
    exec_rd_byte hport ((s.memRead_global ho).trans (congrArg some hb))
  refine ⟨fun i => ?frame, txByte 0x20 (by decide) rfl, txByte 0x21 (by decide) rfl,
    txByte 0x22 (by decide) (congrArg some s.txStatus_eq), globalByte 0 (by decide) rfl,
    globalByte 1 (by decide) ?rxTypeSel, globalByte 2 (by decide) rfl, globalByte 3 (by decide) rfl,
    globalByte 4 (by decide) rfl, globalByte 5 (by decide) rfl, globalByte 6 (by decide) rfl,
    fun a ha => ?reserved⟩
  case frame =>
    have hi := byteIndex_lt i
    exact exec_rd_reg8 hport ((s.memRead_tx (by omega)).trans (s.txWindowByte_frame i))
  case rxTypeSel =>
    change s.rxTypeSel.bit.setWidth 8 = _
    cases s.rxTypeSel <;> rfl
  case reserved =>
    apply rdOfUnmappedAddressReadsZero s (BitVec.ofNat 12 a) hport
    rw [BitVec.toNat_ofNat]
    omega

end Sys2Proof.Machine
end

section
/-! PROOFS. The decoder and the encoder (spec 30_encoding.md R90 to R102, R110, R111). -/

namespace Sys2Proof

/-! ### The opcode map, row by row -/

/-- The rows of the opcode map (R93). -/
inductive OpcodeRow where
  | nop
  | rxb
  | rxtype
  | rxrst
  | rd
  | txasm
  | txnext
  | txrst

/-- The mask and the match of a row. -/
def OpcodeRow.key : OpcodeRow → Word × Word
  | .nop => (0xFFFF, 0x0000)
  | .rxb => (0xFF00, 0x1000)
  | .rxtype => (0xFFFE, 0x2000)
  | .rxrst => (0xFFFF, 0x3000)
  | .rd => (0xF000, 0x4000)
  | .txasm => (0xFE00, 0x5000)
  | .txnext => (0xFFFF, 0x6000)
  | .txrst => (0xFFFF, 0x7000)

/-- The word carries the row's match under its mask (R93). -/
abbrev OpcodeRow.Selects (r : OpcodeRow) (w : Word) : Prop := w &&& r.key.1 = r.key.2

/-- The instruction a row reads from a word it selects, with the operand fields of R92. -/
def OpcodeRow.read (w : Word) : OpcodeRow → Instr
  | .nop => .nop
  | .rxb => .rxb (w.extractLsb' 0 8)
  | .rxtype => .rxtype (.ofBit (w.extractLsb' 0 1))
  | .rxrst => .rxrst
  | .rd => .rd (w.extractLsb' 0 12)
  | .txasm => .txasm (w.getLsbD 8) (w.extractLsb' 0 8)
  | .txnext => .txnext
  | .txrst => .txrst

/-- The rows in the order the decoder tries them; `decode_eq_decodeRows` ties them to it. -/
def opcodeMap : List OpcodeRow := [.nop, .rxb, .rxtype, .rxrst, .rd, .txasm, .txnext, .txrst]

theorem mem_opcodeMap (r : OpcodeRow) : r ∈ opcodeMap := by
  cases r <;> simp [opcodeMap]

/-- The name under which a word that no row selects is refused (R102). -/
def reservedError (w : Word) : DecodeError :=
  if 8 ≤ (opField w).toNat then .reservedOp (opField w) else .mustBeZero (opField w)

/-- The first of the rows that selects the word decides what it decodes to. -/
def decodeRows (w : Word) : List OpcodeRow → Except DecodeError Instr
  | [] => .error (reservedError w)
  | r :: rs => if selects w r.key.1 r.key.2 then .ok (r.read w) else decodeRows w rs

theorem decode_eq_decodeRows (w : Word) : decode w = decodeRows w opcodeMap := by
  have hreserved : (.error (reservedError w) : Except DecodeError Instr) =
      if 8 ≤ (opField w).toNat then .error (.reservedOp (opField w))
      else .error (.mustBeZero (opField w)) := apply_ite Except.error _ _ _
  simp only [opcodeMap, decodeRows, hreserved]
  rfl

theorem OpcodeRow.selects_iff (r : OpcodeRow) (w : Word) :
    selects w r.key.1 r.key.2 = true ↔ r.Selects w := by
  simp [selects, OpcodeRow.Selects]

theorem decodeRows_cases (w : Word) (rows : List OpcodeRow) :
    (∃ r ∈ rows, r.Selects w ∧ decodeRows w rows = .ok (r.read w)) ∨
      ((∀ r ∈ rows, ¬ r.Selects w) ∧ decodeRows w rows = .error (reservedError w)) := by
  induction rows with
  | nil => exact .inr ⟨by simp, rfl⟩
  | cons r rs ih =>
    by_cases h : selects w r.key.1 r.key.2 = true
    · exact .inl ⟨r, List.mem_cons_self, (r.selects_iff w).1 h, if_pos h⟩
    · have htail : decodeRows w (r :: rs) = decodeRows w rs := if_neg h
      rw [htail]
      rcases ih with ⟨q, hq, hsel, e⟩ | ⟨hnone, e⟩
      · exact .inl ⟨q, List.mem_cons_of_mem r hq, hsel, e⟩
      · exact .inr ⟨List.forall_mem_cons.2 ⟨fun hr => h ((r.selects_iff w).2 hr), hnone⟩, e⟩

/-- Everything the decoder can do: read the instruction of a row that selects the word, or refuse a
word that no row selects. -/
theorem decode_cases (w : Word) :
    (∃ r : OpcodeRow, r.Selects w ∧ decode w = .ok (r.read w)) ∨
      ((∀ r : OpcodeRow, ¬ r.Selects w) ∧ decode w = .error (reservedError w)) := by
  rw [decode_eq_decodeRows]
  rcases decodeRows_cases w opcodeMap with ⟨r, -, hsel, e⟩ | ⟨hnone, e⟩
  · exact .inl ⟨r, hsel, e⟩
  · exact .inr ⟨fun r => hnone r (mem_opcodeMap r), e⟩

/-! ### The rows are disjoint: each has its own `op` field -/

theorem opcodeMap_op_nodup : (opcodeMap.map fun r => opField r.key.2).Nodup := by decide

/-- Every row's mask covers the whole `op` field, so a word a row selects has that row's `op`. -/
theorem OpcodeRow.Selects.opField_eq {r : OpcodeRow} {w : Word} (h : r.Selects w) :
    opField w = opField r.key.2 := by
  have hmask : opField r.key.1 = BitVec.allOnes 4 := by cases r <;> rfl
  calc opField w
    _ = opField w &&& opField r.key.1 := by rw [hmask, BitVec.and_allOnes]
    _ = opField (w &&& r.key.1) := BitVec.extractLsb'_and.symm
    _ = opField r.key.2 := congrArg opField h

theorem OpcodeRow.Selects.unique {r q : OpcodeRow} {w : Word} (hr : r.Selects w)
    (hq : q.Selects w) : r = q :=
  List.inj_on_of_nodup_map opcodeMap_op_nodup (mem_opcodeMap r) (mem_opcodeMap q)
    (hr.opField_eq.symm.trans hq.opField_eq)

theorem opcodeMap_disjoint (w : Word) :
    opcodeMap.Pairwise fun r q => ¬ (r.Selects w ∧ q.Selects w) := by
  have hops := List.pairwise_map.1 opcodeMap_op_nodup
  apply hops.imp
  rintro r q hne ⟨hr, hq⟩
  exact hne (hr.opField_eq.symm.trans hq.opField_eq)

theorem decode_of_selects {r : OpcodeRow} {w : Word} (h : r.Selects w) :
    decode w = .ok (r.read w) := by
  rcases decode_cases w with ⟨q, hq, e⟩ | ⟨hnone, -⟩
  · rw [h.unique hq]
    exact e
  · exact absurd h (hnone r)

theorem decode_of_reserved {w : Word} (h : ∀ r : OpcodeRow, ¬ r.Selects w) :
    decode w = .error (reservedError w) := by
  rcases decode_cases w with ⟨r, hr, -⟩ | ⟨-, e⟩
  · exact absurd hr (h r)
  · exact e

/-! ### A row selects exactly the encodings of its instruction -/

/-- A mask over the high bits fixes a word up to its low bits. -/
theorem and_highMask_eq_iff {m n : Nat} (w : BitVec (m + n)) (p : BitVec m) :
    w &&& (BitVec.allOnes m ++ 0#n) = p ++ 0#n ↔ p ++ w.extractLsb' 0 n = w := by
  have hsplit : w.extractLsb' n m ++ w.extractLsb' 0 n = w := BitVec.extractLsb'_append_extractLsb'
  have hmasked : w &&& (BitVec.allOnes m ++ 0#n) = w.extractLsb' n m ++ 0#n := by
    conv_lhs => rw [← hsplit]
    rw [BitVec.and_append, BitVec.and_allOnes, BitVec.and_zero]
  calc w &&& (BitVec.allOnes m ++ 0#n) = p ++ 0#n
    _ ↔ p = w.extractLsb' n m := by rw [hmasked, BitVec.append_left_inj, eq_comm]
    _ ↔ p ++ w.extractLsb' 0 n = w.extractLsb' n m ++ w.extractLsb' 0 n :=
      (BitVec.append_left_inj _).symm
    _ ↔ p ++ w.extractLsb' 0 n = w := by rw [hsplit]

theorem TxType.bit_ofBit (b : BitVec 1) : (TxType.ofBit b).bit = b := by
  rcases BitVec.eq_zero_or_eq_one b with rfl | rfl <;> rfl

theorem TxType.ofBit_bit (t : TxType) : TxType.ofBit t.bit = t := by
  cases t <;> rfl

theorem TxType.ofBit_extractLsb' (w : Word) :
    TxType.ofBit (w.extractLsb' 0 1) = if w.getLsbD 0 then .trx else .txOnly := by
  have hbit : w.extractLsb' 0 1 = BitVec.ofBool (w.getLsbD 0) := by
    apply BitVec.eq_of_getLsbD_eq
    intro i hi
    obtain rfl : i = 0 := by omega
    simp
  rw [hbit]
  cases w.getLsbD 0 <;> rfl

/-- The two operand fields of a `TXASM` header lie side by side (R92). -/
theorem txasm_operands (w : Word) :
    BitVec.ofBool (w.getLsbD 8) ++ w.extractLsb' 0 8 = w.extractLsb' 0 9 := by
  have hbit : BitVec.ofBool (w.getLsbD 8) = w.extractLsb' 8 1 := by
    apply BitVec.eq_of_getLsbD_eq
    intro i hi
    obtain rfl : i = 0 := by omega
    simp
  rw [hbit]
  exact BitVec.extractLsb'_append_extractLsb'_eq_extractLsb' rfl

theorem OpcodeRow.selects_iff_encode (r : OpcodeRow) (w : Word) :
    r.Selects w ↔ encode (r.read w) = w := by
  have fixed (pat : Word) : w &&& 0xFFFF = pat ↔ pat = w := by
    rw [show w &&& 0xFFFF = w from BitVec.and_allOnes, eq_comm]
  cases r with
  | nop => exact fixed 0x0000
  | rxb => exact and_highMask_eq_iff (m := 8) (n := 8) w 0x10
  | rxtype =>
    rw [OpcodeRow.read, encode, TxType.bit_ofBit]
    exact and_highMask_eq_iff (m := 15) (n := 1) w 0x1000
  | rxrst => exact fixed 0x3000
  | rd => exact and_highMask_eq_iff (m := 4) (n := 12) w 0x4
  | txasm =>
    rw [OpcodeRow.read, encode, txasm_operands]
    exact and_highMask_eq_iff (m := 7) (n := 9) w 0b0101000
  | txnext => exact fixed 0x6000
  | txrst => exact fixed 0x7000

/-- The row of the opcode map an instruction is encoded by. -/
def Instr.row : Instr → OpcodeRow
  | .nop => .nop
  | .rxb _ => .rxb
  | .rxtype _ => .rxtype
  | .rxrst => .rxrst
  | .rd _ => .rd
  | .txasm _ _ => .txasm
  | .txnext => .txnext
  | .txrst => .txrst

theorem Instr.row_read_encode (i : Instr) : i.row.read (encode i) = i := by
  cases i with
  | nop => rfl
  | rxb b => exact congrArg Instr.rxb BitVec.extractLsb'_append_eq_right
  | rxtype t =>
    refine congrArg Instr.rxtype ?_
    rw [encode, BitVec.extractLsb'_append_eq_right, TxType.ofBit_bit]
  | rxrst => rfl
  | rd a => exact congrArg Instr.rd BitVec.extractLsb'_append_eq_right
  | txasm c n =>
    refine congrArg₂ Instr.txasm ?_ ?_
    · rw [encode, BitVec.getLsbD_append, BitVec.getLsbD_append]
      simp
    · exact (BitVec.extractLsb'_append_eq_of_add_le (by decide)).trans
        BitVec.extractLsb'_append_eq_right
  | txnext => rfl
  | txrst => rfl

theorem Instr.row_selects_encode (i : Instr) : i.row.Selects (encode i) :=
  (i.row.selects_iff_encode (encode i)).2 (congrArg encode i.row_read_encode)

/-- Settles O1: the instruction's row selects its encoding and reads the operands back. -/
theorem instrDecodesFromItsEncoding : Obligations.InstrDecodesFromItsEncoding := by
  intro i
  rw [decode_of_selects i.row_selects_encode, i.row_read_encode]

/-- Settles O2: a row selected the word, and a row selects only encodings of what it reads. -/
theorem decodedWordIsItsEncoding : Obligations.DecodedWordIsItsEncoding := by
  intro w i hd
  rcases decode_cases w with ⟨r, hsel, e⟩ | ⟨-, e⟩
  · obtain rfl : r.read w = i := Except.ok.inj (e.symm.trans hd)
    exact (r.selects_iff_encode w).1 hsel
  · rw [e] at hd
    cases hd

/-- Settles O4: each row by `decode_of_selects`, and the words no row selects by
`decode_of_reserved`. -/
theorem decoderFollowsOpcodeMap : Obligations.DecoderFollowsOpcodeMap := by
  intro w
  refine ⟨decode_of_selects (r := .nop), decode_of_selects (r := .rxb), ?rxtype,
    decode_of_selects (r := .rxrst), decode_of_selects (r := .rd), decode_of_selects (r := .txasm),
    decode_of_selects (r := .txnext), decode_of_selects (r := .txrst), ?disjoint, ?reserved⟩
  case rxtype =>
    intro h
    rw [← TxType.ofBit_extractLsb']
    exact decode_of_selects (r := .rxtype) h
  case disjoint =>
    change (opcodeMap.map OpcodeRow.key).Pairwise _
    exact List.pairwise_map.2 (opcodeMap_disjoint w)
  case reserved =>
    intro hnone
    have he := decode_of_reserved fun r =>
      hnone r.key (List.mem_map_of_mem (f := OpcodeRow.key) (mem_opcodeMap r))
    rw [reservedError] at he
    split at he
    · exact .inl he
    · exact .inr he

/-! ### Whole commands -/

theorem dataByte_dataWord (b : Byte) : dataByte (dataWord b) = b :=
  BitVec.extractLsb'_append_eq_right

theorem decodeCommand_of_decode {q : Port} {w : Word} {ws : List Word} {i : Instr}
    (hd : decode w = .ok i) (hport : i.acceptedOn q = true) (hlen : i.dataWords ≤ ws.length) :
    decodeCommand q (w :: ws) =
      .ok (⟨q, i, (ws.take i.dataWords).map dataByte⟩, ws.drop i.dataWords) := by
  simp [decodeCommand, hd, hport, Nat.not_lt.2 hlen]

theorem Command.wellFormed_iff (k : Command) :
    k.wellFormed = true ↔
      k.instr.acceptedOn k.port = true ∧ k.payload.length = k.instr.dataWords := by
  simp [Command.wellFormed]

/-- Settles O3: the header decodes by O1, and as many data words as it announces are its payload. -/
theorem commandReadsBackFromItsWords : Obligations.CommandReadsBackFromItsWords := by
  intro k rest hwf
  obtain ⟨hport, hlen⟩ := k.wellFormed_iff.1 hwf
  have hwords : (k.payload.map dataWord).length = k.instr.dataWords := by rw [List.length_map, hlen]
  have hbytes : (k.payload.map dataWord).map dataByte = k.payload := by
    simp [Function.comp_def, dataByte_dataWord]
  rw [encodeCommand, List.cons_append,
    decodeCommand_of_decode (instrDecodesFromItsEncoding k.instr) hport (by simp [hlen]),
    List.take_left' hwords, List.drop_left' hwords, hbytes]

/-- Settles O5: eight of the words are encodings, which O1 decodes, and no row selects the others. -/
theorem specWordsDecode : Obligations.SpecWordsDecode :=
  have decodes := instrDecodesFromItsEncoding
  ⟨decodes .nop, decodes (.rxb 0x9A), decodes (.rxtype .trx), decodes .rxrst, decodes (.rd 0x033),
    decodes (.txasm true 2), decodes .txnext, decodes .txrst,
    decode_of_reserved (w := 0x1100) (by rintro ⟨⟩ <;> decide),
    decode_of_reserved (w := 0x8000) (by rintro ⟨⟩ <;> decide)⟩

end Sys2Proof
end

section
/-! PROOFS. Words taken on a port: data words, reserved words and commands on the wrong port
(spec 30_encoding.md R101, R102, R110; 70_reset_and_hazards.md R267). -/

namespace Sys2Proof.Machine

/-! ### Steps that leave every register, and data words -/

theorem exec_wrongPort {i : Instr} {s : State} (h : i.acceptedOn s.port = false) :
    exec i s = .next { s with response := some 0x00 } := by
  rcases exec_cases i s with ⟨hacc, -⟩ | ⟨-, e⟩
  · rw [h] at hacc
    cases hacc
  · exact e

/-- Settles O9: none of the seven is accepted on its port (R110), by `exec_wrongPort`. -/
theorem wrongPortCommandIsNoOp : Obligations.WrongPortCommandIsNoOp := by
  intro s i h
  apply exec_wrongPort
  rcases h with ⟨hport, ⟨b, rfl⟩ | ⟨t, rfl⟩ | rfl⟩ | ⟨hport, ⟨a, rfl⟩ | ⟨c, n, rfl⟩ | rfl | rfl⟩ <;>
    rw [hport] <;> rfl

/-- Settles O8: a word no row selects is refused (`decode_of_reserved`), and a refused word is a no-op
(`step_reserved`). -/
theorem reservedWordIsNoOp : Obligations.ReservedWordIsNoOp := by
  intro s q w rest hin hmode hnone
  obtain ⟨hnop, hrxb, hrxtype, hrxrst, hrd, htxasm, htxnext, htxrst⟩ := hnone
  refine step_reserved hin hmode (decode_of_reserved (w := w) fun r => ?_)
  cases r with
  | nop => exact hnop
  | rxb => exact hrxb
  | rxtype => exact hrxtype
  | rxrst => exact hrxrst
  | rd => exact hrd
  | txasm => exact htxasm
  | txnext => exact htxnext
  | txrst => exact htxrst

/-- Settles O7: the step is `State.takeDataWord`, and `State.takeDataWord_cases` says what it does. -/
theorem dataWordIsCollected : Obligations.DataWordIsCollected := by
  intro s w rest hin hactive
  rw [step_data hin hactive]
  rcases State.takeDataWord_cases { s with inputs := rest, port := .c } w with
    ⟨hlast, e⟩ | ⟨hmore, e⟩
  · rw [e, if_pos (by exact hlast)]
    rfl
  · rw [e, if_neg (by exact hmore)]
    rfl

/-! ### Runs, as the transmit side sees them -/

/-- The inputs that may write the transmit side: words on port C, and `rst`. -/
def Input.writesTx : Input → Bool
  | .word q _ => q == .c
  | .time _ => false
  | .rst => true

theorem State.takeInput_txSide_of_not_writesTx {s : State} {i : Input} (h : i.writesTx = false) :
    (s.takeInput i).txSide = s.txSide := by
  cases i with
  | rst => cases h
  | time t => rfl
  | word q w =>
    cases q with
    | p => exact State.takeInput_txSide_of_portP rfl
    | c => cases h

theorem filter_writesTx {ins : List Input} (h : Input.rst ∉ ins) :
    ins.filter Input.writesTx = (ins.filterMap (Input.wordOn .c)).map (Input.word .c) := by
  induction ins with
  | nil => rfl
  | cons i is ih =>
    obtain ⟨hi, his⟩ := not_or.1 (mt List.mem_cons.2 h)
    cases i with
    | rst => exact absurd rfl hi
    | time t => exact ih his
    | word q w =>
      cases q with
      | p => exact ih his
      | c => exact congrArg (Input.word .c w :: ·) (ih his)

/-- A run without `rst` leaves the transmit side that the port C words alone would leave, whatever
port P does and however `time_in` moves between them (R40, R71). -/
theorem State.runInputs_txSide_eq_words (s : State) {ins : List Input} (h : Input.rst ∉ ins) :
    ∃ t v, s.runInputs ins = some t ∧
      s.runInputs ((ins.filterMap (Input.wordOn .c)).map (Input.word .c)) = some v ∧
      t.txSide = v.txSide := by
  rw [← filter_writesTx h]
  exact State.runInputs_filter_rel (R := fun s u => s.txSide = u.txSide)
    (fun _ _ i _ h => State.takeInput_txSide_congr (by exact h) i)
    (fun _ _ _ hi h => (State.takeInput_txSide_of_not_writesTx hi).trans h) ins rfl

/-! ### A `TXASM` in progress -/

/-- The header of a `TXASM` with data words to come starts the collector (R172). -/
theorem step_txasm_header {s : State} (hidle : s.asm.active = false) (c : Bool) {n : Byte}
    (hn : n ≠ 0) :
    ∃ u, step { s with inputs := [.word .c (encode (.txasm c n))] } = .next u ∧
      u.txSide = (s.tx, { active := true, c := c, n := n, buf := [] }) := by
  refine ⟨_, step_accepted (instrDecodesFromItsEncoding (.txasm c n)) (by simp [hidle]) rfl, ?_⟩
  rcases State.startAssembly_cases { s with inputs := [], port := .c } c n with ⟨h0, -⟩ | ⟨-, e⟩
  · exact absurd h0 hn
  · rw [Instr.effect, e]
    rfl

/-- A data word that is not the last is collected, and the TX packet stays (R101). -/
theorem step_middle_data {s : State} (hactive : s.asm.active = true)
    (hmore : s.asm.buf.length + 1 < s.asm.n.toNat) (w : Word) :
    ∃ u, step { s with inputs := [.word .c w] } = .next u ∧
      u.txSide = (s.tx, { s.asm with buf := s.asm.buf ++ [dataByte w] }) := by
  refine ⟨_, step_data rfl hactive, ?_⟩
  rcases State.takeDataWord_cases { s with inputs := [], port := .c } w with ⟨hlast, -⟩ | ⟨-, e⟩
  · exact absurd hlast (Nat.ne_of_lt hmore)
  · rw [e]
    rfl

/-- Fewer data words than are missing are all collected. -/
theorem State.runInputs_dataWords {ds : List Word} {s : State} (hactive : s.asm.active = true)
    (hmore : s.asm.buf.length + ds.length < s.asm.n.toNat) :
    ∃ t, s.runInputs (ds.map (Input.word .c)) = some t ∧
      t.txSide = (s.tx, { s.asm with buf := s.asm.buf ++ ds.map dataByte }) := by
  induction ds generalizing s with
  | nil => exact ⟨s, rfl, by simp [State.txSide]⟩
  | cons d ds ih =>
    rw [List.length_cons] at hmore
    obtain ⟨u, hstep, hu⟩ := step_middle_data hactive (by omega) d
    obtain ⟨htx, hasm⟩ := Prod.mk.inj hu
    have hmore' : u.asm.buf.length + ds.length < u.asm.n.toNat := by
      simp only [hasm, List.length_append, List.length_singleton]
      omega
    obtain ⟨t, hrun, ht⟩ := ih (by rw [hasm]; exact hactive) hmore'
    refine ⟨t, (State.runInputs_cons hstep).trans hrun, ?_⟩
    rw [ht, htx, hasm]
    simp

/-- Settles O39: only the port C words matter (`State.runInputs_txSide_eq_words`); the first starts
the collector, and the others, fewer than it waits for, are collected. -/
theorem unfinishedTxasmLeavesTxPacket : Obligations.UnfinishedTxasmLeavesTxPacket := by
  intro s ins c n ds hidle hrst hlt hwords
  obtain ⟨t, v, hrun, hrunWords, hsame⟩ := s.runInputs_txSide_eq_words hrst
  rw [hwords, List.map_cons] at hrunWords
  have hn : n ≠ 0 := by
    rintro rfl
    exact absurd hlt (Nat.not_lt_zero _)
  obtain ⟨u, hheader, hu⟩ := step_txasm_header hidle c hn
  obtain ⟨hutx, huasm⟩ := Prod.mk.inj hu
  obtain ⟨v', hdata, hv⟩ := State.runInputs_dataWords (s := u) (ds := ds) (by rw [huasm])
    (by simpa [huasm] using hlt)
  rw [State.runInputs_cons hheader, hdata] at hrunWords
  obtain rfl : v' = v := Option.some.inj hrunWords
  obtain ⟨htx, hasm⟩ := Prod.mk.inj (hsame.trans hv)
  refine ⟨t, hrun, htx.trans hutx, hasm.trans ?_⟩
  rw [huasm]
  rfl

end Sys2Proof.Machine
end

section
/-! PROOFS. The packet primitives: the checksum and appending (spec 40_packet.md R122, R123, R126), and
`RXB` on a slot without room (90_conflicts.md C7). -/

namespace Sys2Proof.Machine

/-! ### The checksum -/

theorem foldl_add_toNat {w : Nat} (bs : List (BitVec w)) (a : BitVec w) :
    (bs.foldl (· + ·) a).toNat = (a.toNat + (bs.map BitVec.toNat).sum) % 2 ^ w := by
  induction bs generalizing a with
  | nil => simp
  | cons b bs ih =>
    rw [List.foldl_cons, ih, BitVec.toNat_add, Nat.mod_add_mod, List.map_cons, List.sum_cons,
      Nat.add_assoc]

/-- The law of R126. -/
theorem modularSum_toNat (bs : List Byte) :
    (modularSum bs).toNat = (bs.map BitVec.toNat).sum % 256 := by
  simpa [modularSum] using foldl_add_toNat bs 0

theorem modularSum_perm {bs cs : List Byte} (h : bs.Perm cs) : modularSum bs = modularSum cs := by
  apply BitVec.eq_of_toNat_eq
  rw [modularSum_toNat, modularSum_toNat, (h.map BitVec.toNat).sum_eq]

/-- Settles O44: the law is `modularSum_toNat`, and the order does not matter to a sum of naturals. -/
theorem modularSumIsSumMod256 : Obligations.ModularSumIsSumMod256 :=
  ⟨rfl, fun bs => ⟨modularSum_toNat bs, fun _ => modularSum_perm⟩⟩

/-! ### Appending to a packet -/

theorem Packet.hasRoom_eq_false_iff (p : Packet) :
    p.hasRoom = false ↔ p.length.toNat ≤ p.cursor.toNat := by
  rw [← Bool.not_eq_true, p.hasRoom_iff, Nat.not_lt]

@[simp] theorem Packet.appendN_nil (p : Packet) : p.appendN [] = p := rfl

@[simp] theorem Packet.appendN_cons (p : Packet) (b : Byte) (bs : List Byte) :
    p.appendN (b :: bs) = (p.append b).appendN bs := rfl

/-- Bytes that do not fit are dropped (R123). -/
theorem Packet.appendN_full {p : Packet} (h : p.hasRoom = false) (bs : List Byte) :
    p.appendN bs = p := by
  induction bs with
  | nil => rfl
  | cons b bs ih => rw [Packet.appendN_cons, Packet.append_full h, ih]

/-- How many of the bytes fit below the length (R123). -/
def Packet.fits (p : Packet) (bs : List Byte) : Nat :=
  min bs.length (p.length.toNat - p.cursor.toNat)

@[simp] theorem Packet.fits_nil (p : Packet) : p.fits [] = 0 := by simp [Packet.fits]

theorem Packet.fits_full {p : Packet} (h : p.hasRoom = false) (bs : List Byte) : p.fits bs = 0 := by
  rw [Packet.hasRoom_eq_false_iff] at h
  simp [Packet.fits, Nat.sub_eq_zero_of_le h]

/-- Where there is room, the first byte fits, and the others fit as they do once it is stored. -/
theorem Packet.fits_cons {p : Packet} (h : p.hasRoom = true) (b : Byte) (bs : List Byte) :
    p.fits (b :: bs) = (p.append b).fits bs + 1 := by
  have hlt := p.hasRoom_iff.1 h
  rw [Packet.fits, Packet.fits, Packet.append_cursor h, Packet.append_length, List.length_cons]
  omega

theorem Packet.appendN_cursor (p : Packet) (bs : List Byte) :
    (p.appendN bs).cursor.toNat = p.cursor.toNat + p.fits bs := by
  induction bs generalizing p with
  | nil => simp
  | cons b bs ih =>
    cases hr : p.hasRoom with
    | false => rw [Packet.appendN_full hr, Packet.fits_full hr, Nat.add_zero]
    | true => rw [Packet.appendN_cons, ih, Packet.append_cursor hr, Packet.fits_cons hr]; omega

theorem Packet.appendN_bytes (p : Packet) (bs : List Byte) (i : Fin config.capacity) :
    (p.appendN bs).bytes[i] =
      if p.cursor.toNat ≤ i.val ∧ i.val < p.cursor.toNat + p.fits bs then
        .stored (bs.getD (i.val - p.cursor.toNat) 0)
      else p.bytes[i] := by
  induction bs generalizing p with
  | nil =>
    rw [Packet.appendN_nil, Packet.fits_nil, if_neg (by omega)]
  | cons b bs ih =>
    cases hr : p.hasRoom with
    | false =>
      rw [Packet.appendN_full hr, Packet.fits_full hr, if_neg (by omega)]
    | true =>
      rw [Packet.appendN_cons, ih, Packet.append_cursor hr, Packet.fits_cons hr,
        Packet.append_bytes hr]
      rcases Nat.lt_trichotomy i.val p.cursor.toNat with hbelow | hat | habove
      · rw [if_neg (by omega), if_neg (by omega), if_neg (by omega)]
      · rw [if_neg (by omega), if_pos hat, if_pos (by omega), hat, Nat.sub_self, List.getD_cons_zero]
      · have hnext : i.val - p.cursor.toNat = i.val - (p.cursor.toNat + 1) + 1 := by omega
        rw [if_neg (Nat.ne_of_gt habove), hnext, List.getD_cons_succ]
        exact if_congr (by omega) rfl rfl

/-- Settles O45 by one induction over the bytes for the cursor and one for the array. The bounds on the
packet are not needed, since the array is read below its capacity. -/
theorem appendStoresWhatFits : Obligations.AppendStoresWhatFits := by
  intro p bs _
  exact ⟨p.appendN_length bs, p.appendN_cursor bs, p.appendN_bytes bs⟩

/-! ### `RXB` on a slot without room -/

@[simp] theorem State.setCur_cur (s : State) : s.setCur s.cur = s := by
  simp [State.setCur, State.setSlot, State.cur, State.slot]

theorem Slot.rxAppend_full {sl : Slot} (h : sl.packet.hasRoom = false) (b : Byte) (t : BitVec 32) :
    sl.completes b = false ∧ sl.rxAppend b t = sl := by
  rcases sl.rxAppend_cases b t with ⟨-, hr, -⟩ | ⟨-, hr, -⟩ | ⟨hnot, -, e⟩
  · rw [h] at hr
    cases hr
  · rw [h] at hr
    cases hr
  · exact ⟨hnot, e⟩

theorem State.bufAppend_of_not_completes {s : State} {b : Byte} (h : s.cur.completes b = false) :
    s.bufAppend b = s.setCur (s.cur.rxAppend b s.timeIn) := by
  rcases s.bufAppend_cases b with ⟨hdone, -⟩ | ⟨-, e⟩
  · rw [h] at hdone
    cases hdone
  · exact e

theorem exec_rxb {s : State} (hport : s.port = .p) (b : Byte) :
    exec (.rxb b) s =
      .next ((s.bufAppend b).respond (if s.cur.completes b then 0x01 else 0x00)) :=
  State.onPort_accepted hport _

/-- Settles O29: a slot without room completes nothing and stays as it is (`Slot.rxAppend_full`). -/
theorem rxbOnAFullSlotIsNoOp : Obligations.RxbOnAFullSlotIsNoOp := by
  intro b s hport hfull
  obtain ⟨hnot, hslot⟩ :=
    Slot.rxAppend_full (s.cur.packet.hasRoom_eq_false_iff.2 hfull) b s.timeIn
  rw [exec_rxb hport, State.bufAppend_of_not_completes hnot, hslot, hnot, State.setCur_cur]
  rfl

end Sys2Proof.Machine
end

section
/-! PROOFS. The Manchester code (spec 41_rxpacket.md R144, R145, R156): a raw byte read symbol by
symbol. -/

namespace Sys2Proof.Machine

/-! ### A raw byte, symbol by symbol -/

/-- Validity (R144): the mask of `validRaw` keeps one bit a symbol, the one that tells its two bits
apart. -/
theorem validRaw_iff (e : Byte) :
    validRaw e = true ↔ ∀ i : Fin 4, e.getLsbD (2 * i.val + 1) ≠ e.getLsbD (2 * i.val) := by
  rw [validRaw, beq_iff_eq]
  constructor
  · intro h i
    have hbit := congrArg (fun x : Byte => x.getLsbD (2 * i.val)) h
    fin_cases i <;> simpa [ne_comm] using hbit
  · intro h
    have h0 := (h 0).symm
    have h1 := (h 1).symm
    have h2 := (h 2).symm
    have h3 := (h 3).symm
    refine BitVec.eq_of_getLsbD_eq fun k hk => ?_
    interval_cases k <;> simp_all

/-- Four fields of one width, read by their index from the least significant. -/
theorem getLsbD_append_four {w : Nat} (a b c d : BitVec w) (i : Fin 4) (k : Fin w) :
    (a ++ b ++ c ++ d).getLsbD (w * i.val + k.val) = (![d, c, b, a] i).getLsbD k.val := by
  have hk := k.isLt
  have h2 : w * 2 + k.val = w + (w + k.val) := by omega
  have h3 : w * 3 + k.val = w + (w + (w + k.val)) := by omega
  fin_cases i <;> simp [BitVec.getLsbD_append, BitVec.getElem_append, h2, h3]

/-- The bit of symbol `i` that the nibble takes (R144): the more significant one for 0b10. -/
def takenBit (one : ManchOne) (e : Byte) (i : Nat) : Bool :=
  match one with
  | .sym10 => e.getLsbD (2 * i + 1)
  | .sym01 => e.getLsbD (2 * i)

theorem nibble_getLsbD (one : ManchOne) (e : Byte) (i : Fin 4) :
    (nibble one e).getLsbD i.val = takenBit one e i.val := by
  rw [← Nat.one_mul i.val]
  cases one with
  | sym10 =>
    refine (getLsbD_append_four _ _ _ _ i (0 : Fin 1)).trans ?_
    fin_cases i <;> simp [takenBit]
  | sym01 =>
    refine (getLsbD_append_four _ _ _ _ i (0 : Fin 1)).trans ?_
    fin_cases i <;> simp [takenBit]

/-! ### The reference encoder -/

/-- Bit `b` of symbol `i` of an encoded nibble (R156). -/
theorem encNibble_getLsbD (one : ManchOne) (v : BitVec 4) (i : Fin 4) (b : Fin 2) :
    (encNibble one v).getLsbD (2 * i.val + b.val) =
      (encSymbol one (v.getLsbD i.val)).getLsbD b.val := by
  refine (getLsbD_append_four _ _ _ _ i b).trans ?_
  fin_cases i <;> rfl

theorem validRaw_encNibble (one : ManchOne) (v : BitVec 4) : validRaw (encNibble one v) = true := by
  rw [validRaw_iff]
  intro i
  have hdiffer (b : Bool) : (encSymbol one b).getLsbD 1 ≠ (encSymbol one b).getLsbD 0 := by
    cases one <;> cases b <;> decide
  have hhi := encNibble_getLsbD one v i 1
  have hlo := encNibble_getLsbD one v i 0
  exact hhi.trans_ne ((hdiffer _).trans_eq hlo.symm)

theorem nibble_encNibble (one : ManchOne) (v : BitVec 4) : nibble one (encNibble one v) = v := by
  refine BitVec.eq_of_getLsbD_eq fun i hi => (nibble_getLsbD one _ ⟨i, hi⟩).trans ?_
  cases one with
  | sym10 =>
    refine (encNibble_getLsbD .sym10 v ⟨i, hi⟩ 1).trans ?_
    cases v.getLsbD i <;> rfl
  | sym01 =>
    refine (encNibble_getLsbD .sym01 v ⟨i, hi⟩ 0).trans ?_
    cases v.getLsbD i <;> rfl

/-- Settles O46: validity and the nibble bit by bit (`validRaw_iff`, `nibble_getLsbD`), and the two
closed facts about the rule's table by evaluation. -/
theorem rawByteIsFourSymbols : Obligations.RawByteIsFourSymbols := by
  refine ⟨fun e => ⟨validRaw_iff e, fun i => ⟨?_, ?_⟩⟩, fun r hr => ?_, by decide⟩
  · exact nibble_getLsbD .sym10 e i
  · exact nibble_getLsbD .sym01 e i
  · fin_cases hr <;> decide

/-- Settles O47: both raw bytes are valid, and each decodes back to its nibble. -/
theorem decoderInvertsReferenceEncoder : Obligations.DecoderInvertsReferenceEncoder := by
  intro one d
  refine ⟨_, _, rfl, validRaw_encNibble _ _, validRaw_encNibble _ _, ?_⟩
  rw [decodePair, nibble_encNibble, nibble_encNibble]
  exact BitVec.extractLsb'_append_extractLsb'

end Sys2Proof.Machine
end

section
/-! PROOFS. The received packet (spec 41_rxpacket.md R143 to R152): its health along a step, and the
byte that completes it. -/

namespace Sys2Proof.Machine

/-! ### Health along a step -/

/-- What a step may do to the health of slot `k` (R151): leave it, return it to NotChecked, or decide
it with the packet that the step completes. -/
def HealthStep (s t : State) (k : Fin config.nSlots) : Prop :=
  (t.slot k).health = (s.slot k).health ∨ (t.slot k).health = .notChecked ∨
    (k = s.current ∧ (s.slot k).health = .notChecked ∧ t.notified = true ∧
      t.current = nextSlot s.current ∧ (t.slot k).timecode = .stored s.timeIn)

theorem HealthStep.of_rxView_eq {s t : State} (h : t.rxView = s.rxView) (k : Fin config.nSlots) :
    HealthStep s t k := by
  obtain ⟨hslots, -, -, -⟩ := State.rxView_eq_iff.1 h
  exact .inl (by rw [State.slot_congr hslots k])

theorem HealthStep.of_setCur {s t : State} {sl : Slot} (h : t.slots = (s.setCur sl).slots)
    (hsl : sl.health = s.cur.health ∨ sl.health = .notChecked) (k : Fin config.nSlots) :
    HealthStep s t k := by
  have hk : t.slot k = if s.current = k then sl else s.slot k :=
    (State.slot_congr h k).trans (s.slot_setCur k sl)
  unfold HealthStep
  rw [hk]
  split
  · rename_i hcur
    subst hcur
    exact hsl.imp_right .inl
  · exact .inl rfl

/-- `RXB` decides the health of the current slot alone, with its last byte; the slot the pool moves to
is reset (R142, R191). -/
theorem HealthStep.rxb {s : State} (hport : s.port = .p) (hcur : s.cur.health = .notChecked)
    (b : Byte) (k : Fin config.nSlots) : HealthStep s (Instr.effect s (.rxb b)) k := by
  rcases s.bufAppend_cases b with ⟨hdone, hslot, e⟩ | ⟨hnot, e⟩
  · have hk : (Instr.effect s (.rxb b)).slot k = _ :=
      (congrArg (fun u : State => u.slot k) e).trans (s.slot_rotated _ _ k)
    by_cases hnext : nextSlot s.current = k
    · rw [if_pos hnext] at hk
      exact .inr (.inl (by rw [hk]; rfl))
    · rw [if_neg hnext] at hk
      by_cases hc : s.current = k
      · rw [if_pos hc] at hk
        subst hc
        refine .inr (.inr ⟨rfl, hcur, ?_, ?_, ?_⟩)
        · simp [Instr.effect, e, hdone, State.notified, hport]
        · simp [Instr.effect, e]
        · rw [hk, hslot, Slot.postProcess_timecode]
      · rw [if_neg hc] at hk
        exact .inl (by rw [hk])
  · refine .of_setCur (sl := s.cur.store b) ?_ (.inl rfl) k
    simp [Instr.effect, e, Slot.rxAppend, hnot]

theorem HealthStep.effect {s : State} {i : Instr} (hacc : i.acceptedOn s.port = true)
    (hcur : s.cur.health = .notChecked) (k : Fin config.nSlots) :
    HealthStep s (Instr.effect s i) k := by
  cases i with
  | rxb b => exact .rxb (by simpa [Instr.acceptedOn] using hacc) hcur b k
  | rxtype t =>
    rcases s.tellType_cases t with ⟨-, e⟩ | ⟨-, e⟩
    · refine .of_setCur (sl := s.cur.retype t) ?_ (.inl rfl) k
      rw [Instr.effect, e]
      rfl
    · exact .inl (by rw [Instr.effect, e]; rfl)
  | rxrst =>
    refine .of_setCur (sl := s.cur.rxReset s.rxTypeSel) ?_ (.inr rfl) k
    rfl
  | nop => exact .of_rxView_eq (Instr.effect_rxView rfl s) k
  | rd a => exact .of_rxView_eq (Instr.effect_rxView rfl s) k
  | txasm c n => exact .of_rxView_eq (Instr.effect_rxView rfl s) k
  | txnext => exact .of_rxView_eq (Instr.effect_rxView rfl s) k
  | txrst => exact .of_rxView_eq (Instr.effect_rxView rfl s) k

/-- Settles O21, by the kinds of step of `step_cases`: only a command touches the pool, and of the
commands only `RXB` decides a health. -/
theorem healthIsDecidedOncePerPacket : Obligations.HealthIsDecidedOncePerPacket := by
  intro s t k hinv hrst hstep
  obtain ⟨⟨hrecv, -⟩, -⟩ := s.inv_iff.1 hinv
  have hcur : s.cur.health = .notChecked := hrecv.health
  change HealthStep s t k
  rcases step_cases hstep with ⟨-, rfl⟩ | ⟨rest, hin, -⟩ | ⟨x, rest, -, rfl⟩ |
    ⟨w, rest, -, -, rfl⟩ | ⟨q, w, rest, i, -, -, -, hacc, rfl⟩ | ⟨q, w, rest, -, -, -, rfl⟩
  · exact .inl rfl
  · exact absurd (congrArg List.head? hin) hrst
  · exact .inl rfl
  · exact .of_rxView_eq (State.takeDataWord_rxView { s with inputs := rest, port := .c } w) k
  · exact HealthStep.effect (s := { s with inputs := rest, port := q }) hacc hcur k
  · exact .inl rfl

/-! ### The completing byte -/

/-- The pipeline on the slot with its last byte stored, decided by its raw frame (the table of R146). -/
theorem Slot.postProcess_store_cases {sl : Slot} (hi : sl.Inv) (hr : sl.packet.hasRoom = true)
    (b : Byte) (t : BitVec 32) :
    (frameValid (sl.frameWith b) = false ∧
        (sl.store b).postProcess t = { sl.store b with health := .bad, timecode := .stored t }) ∨
      (frameValid (sl.frameWith b) = true ∧ checksumOk (decodeFrame (sl.frameWith b)) = false ∧
        (sl.store b).postProcess t =
          { (sl.store b).deManchesterise with health := .bad, timecode := .stored t }) ∨
      (frameValid (sl.frameWith b) = true ∧ checksumOk (decodeFrame (sl.frameWith b)) = true ∧
        (sl.store b).postProcess t =
          { (sl.store b).deManchesterise.decodeId.decodeWattage with
            health := .ok, timecode := .stored t }) := by
  rw [← Slot.symbolsValid_store hi.1 hr, ← Slot.checksumMatches_store hi hr]
  exact (sl.store b).postProcess_cases t

/-- `RXB` with the last byte of a frame decodes the current slot and moves the pool on (R143, R191). -/
theorem State.rxb_completes {s : State} {b : Byte}
    (hlast : s.cur.packet.cursor.toNat + 1 = s.cur.packet.length.toNat) :
    (Instr.effect s (.rxb b)).response = some 0x01 ∧
      (Instr.effect s (.rxb b)).current = nextSlot s.current ∧
      (Instr.effect s (.rxb b)).slot s.current = (s.cur.store b).postProcess s.timeIn ∧
      (Instr.effect s (.rxb b)).slot (nextSlot s.current) =
        (s.slot (nextSlot s.current)).rxReset s.rxTypeSel := by
  have hdone := (s.cur.completes_iff b).2 hlast
  rcases s.bufAppend_cases b with ⟨-, hslot, e⟩ | ⟨hnot, -⟩
  · have hk (k : Fin config.nSlots) : (Instr.effect s (.rxb b)).slot k = _ :=
      (congrArg (fun u : State => u.slot k) e).trans (s.slot_rotated _ _ k)
    refine ⟨by simp [Instr.effect, hdone], by simp [Instr.effect, e], ?_, ?_⟩
    · rw [hk, if_neg (nextSlot_ne _), if_pos rfl, hslot]
    · rw [hk, if_pos rfl]
  · rw [hdone] at hnot
    cases hnot

/-- The identifier lies in the decoded bytes before the checksum (R155). -/
theorem idOff_lt (t : TxType) : (config.layout t).idOff + 1 < config.len t / 2 := by
  cases t <;> decide

/-- Settles O27: the last of the pipeline's outcomes, with each register read off the raw frame. -/
theorem goodFrameMakesPacketOk : Obligations.GoodFrameMakesPacketOk := by
  intro b s hinv hport hlast hvalid hsum
  obtain ⟨hslots, -⟩ := hinv
  have hsl : s.cur.Inv := hslots s.current
  have ⟨hpacket, hlen, _⟩ := hsl
  have hr : s.cur.packet.hasRoom = true := (Packet.hasRoom_iff _).2 (by omega)
  obtain ⟨hresp, hcurrent, hslot, hnext⟩ := State.rxb_completes (b := b) hlast
  refine ⟨Instr.effect s (.rxb b), exec_rxb hport b, hresp, hcurrent, ?_⟩
  rw [hcurrent, hslot]
  rcases Slot.postProcess_store_cases hsl hr b s.timeIn with ⟨h, -⟩ | ⟨-, h, -⟩ | ⟨-, -, e⟩
  · rw [hvalid] at h; cases h
  · rw [hsum] at h; cases h
  · rw [e]
    refine ⟨rfl, Slot.payload_store hpacket hr b, ?_, fun c => ?_, rfl, hnext⟩
    · have hid : (config.layout s.cur.txType).idOff + 1 < s.cur.packet.length.toNat / 2 := by
        rw [hlen]
        exact idOff_lt _
      exact congrArg Reg.stored (Slot.field16_store hpacket hr b _ hid)
    · exact (Slot.decodeWattage_watts _ c).trans
        (congrArg Reg.stored (Slot.wattReading_store hsl hr b c.val))

end Sys2Proof.Machine
end

section
/-! PROOFS. Whole frames (spec 41_rxpacket.md R140, R143, R146): a run of `RXB`s, and what it leaves in
the slot. -/

namespace Sys2Proof.Machine

/-! ### The slot with several bytes stored -/

/-- The slot with raw bytes appended in order, as one `Slot.store` each. -/
def Slot.storeAll (sl : Slot) (bs : List Byte) : Slot := { sl with packet := sl.packet.appendN bs }

@[simp] theorem Slot.storeAll_packet (sl : Slot) (bs : List Byte) :
    (sl.storeAll bs).packet = sl.packet.appendN bs := rfl

theorem Slot.storeAll_cons (sl : Slot) (b : Byte) (bs : List Byte) :
    sl.storeAll (b :: bs) = (sl.store b).storeAll bs := rfl

theorem Slot.storeAll_concat (sl : Slot) (bs : List Byte) (b : Byte) :
    sl.storeAll (bs ++ [b]) = (sl.storeAll bs).store b := by
  simp [Slot.storeAll, Slot.store, Packet.appendN]

/-- Fewer bytes than are missing leave the slot receiving. -/
theorem Slot.Receiving.storeAll {sl : Slot} (h : sl.Receiving) {bs : List Byte}
    (hfew : sl.packet.cursor.toNat + bs.length < sl.packet.length.toNat) :
    (sl.storeAll bs).Receiving := by
  induction bs generalizing sl with
  | nil => exact h
  | cons b bs ih =>
    rw [List.length_cons] at hfew
    have hr : sl.packet.hasRoom = true := (Packet.hasRoom_iff _).2 (by omega)
    have hnot : sl.completes b = false := by
      rw [← Bool.not_eq_true, sl.completes_iff]
      omega
    refine ih (h.store hnot) ?_
    rw [Slot.store_packet, Packet.append_cursor hr, Packet.append_length]
    omega

/-- A byte received into an empty slot reads back. -/
theorem Packet.byteAt_appendN {p : Packet} (hc : p.cursor = 0) (hcap : p.length.toNat ≤ config.capacity)
    {bs : List Byte} (hfit : bs.length ≤ p.length.toNat) {i : Nat} (hi : i < bs.length) :
    (p.appendN bs).byteAt i = bs[i] := by
  have hbyte := p.appendN_bytes bs ⟨i, by omega⟩
  rw [if_pos (by simp [hc, Packet.fits]; omega)] at hbyte
  rw [Packet.byteAt_fin _ ⟨i, by omega⟩, hbyte]
  simp [hc, hi]

/-- The raw frame of an empty slot that has taken all of it. -/
theorem Slot.frameWith_storeAll {sl : Slot} (hc : sl.packet.cursor = 0)
    (hcap : sl.packet.length.toNat ≤ config.capacity) {bs : List Byte} (b : Byte)
    (hl : bs.length + 1 = sl.packet.length.toNat) : (sl.storeAll bs).frameWith b = bs ++ [b] := by
  have hcursor : (sl.storeAll bs).packet.cursor.toNat = bs.length := by
    have := sl.packet.appendN_cursor bs
    simpa [hc, Packet.fits, ← hl] using this
  refine List.ext_getElem (by simp [Slot.frameWith_length, ← hl]) fun i h1 h2 => ?_
  rw [← List.getD_eq_getElem _ 0, Slot.frameWith_getD _ _ _ (by simpa [Slot.frameWith_length] using h1),
    hcursor]
  split
  · subst_vars; simp
  · have hi : i < bs.length := by
      simp only [List.length_append, List.length_singleton] at h2
      omega
    rw [List.getElem_append_left hi]
    exact Packet.byteAt_appendN hc hcap (by omega) hi

/-- The pipeline on a whole frame received into an empty slot, decided by its raw bytes (the table of
R146). -/
theorem Slot.postProcess_storeAll_cases {sl : Slot} (h : sl.Receiving) (hc : sl.packet.cursor = 0)
    {raw : List Byte} (hl : raw.length = sl.packet.length.toNat) (t : BitVec 32) :
    (frameValid raw = false ∧
        (sl.storeAll raw).postProcess t =
          { sl.storeAll raw with health := .bad, timecode := .stored t }) ∨
      (frameValid raw = true ∧ checksumOk (decodeFrame raw) = false ∧
        (sl.storeAll raw).postProcess t =
          { (sl.storeAll raw).deManchesterise with health := .bad, timecode := .stored t }) ∨
      (frameValid raw = true ∧ checksumOk (decodeFrame raw) = true ∧
        (sl.storeAll raw).postProcess t =
          { (sl.storeAll raw).deManchesterise.decodeId.decodeWattage with
            health := .ok, timecode := .stored t }) := by
  have hrecv := h
  obtain ⟨⟨⟨-, hcap⟩, -, -⟩, hpos⟩ := h
  rw [BitVec.lt_def] at hpos
  obtain ⟨bs, b, rfl⟩ : ∃ bs b, raw = bs ++ [b] := by
    rcases raw.eq_nil_or_concat with rfl | ⟨bs, b, e⟩
    · rw [← hl] at hpos
      exact absurd hpos (Nat.not_lt_zero _)
    · exact ⟨bs, b, by simpa using e⟩
  rw [List.length_append, List.length_singleton] at hl
  obtain ⟨hinv, hlt⟩ := hrecv.storeAll (bs := bs) (by rw [hc]; simp; omega)
  have hframe := Slot.frameWith_storeAll hc hcap b hl
  rw [Slot.storeAll_concat, ← hframe]
  exact Slot.postProcess_store_cases hinv ((Packet.hasRoom_iff _).2 hlt) b t

/-! ### A run of `RXB`s -/

theorem step_rxb (s : State) (b : Byte) :
    step { s with inputs := [.word .p (encode (.rxb b))] } =
      .next (Instr.effect { s with inputs := [], port := .p } (.rxb b)) :=
  step_accepted (instrDecodesFromItsEncoding (.rxb b)) (by simp) rfl

/-- `RXB` before the last byte of a frame stores it and stays at the slot (R192). -/
theorem step_rxb_stores {s : State} {b : Byte} (hnot : s.cur.completes b = false) :
    ∃ u, step { s with inputs := [.word .p (encode (.rxb b))] } = .next u ∧
      u.response = some 0x00 ∧ u.current = s.current ∧ u.cur = s.cur.store b ∧
      u.timeIn = s.timeIn ∧ u.txSide = s.txSide := by
  have hnot' : (State.cur { s with inputs := [], port := .p }).completes b = false := hnot
  have hslot : s.cur.rxAppend b s.timeIn = s.cur.store b := by simp [Slot.rxAppend, hnot]
  refine ⟨_, step_rxb s b, ?_⟩
  rw [Instr.effect, State.bufAppend_of_not_completes hnot', hnot']
  exact ⟨rfl, rfl, (State.cur_setCur _ _).trans hslot, rfl, rfl⟩

/-- `RXB` with the last byte of a frame decodes the slot and moves on (R191, R192). -/
theorem step_rxb_completes {s : State} {b : Byte}
    (hlast : s.cur.packet.cursor.toNat + 1 = s.cur.packet.length.toNat) :
    ∃ u, step { s with inputs := [.word .p (encode (.rxb b))] } = .next u ∧
      u.response = some 0x01 ∧ u.current = nextSlot s.current ∧
      u.slot s.current = (s.cur.store b).postProcess s.timeIn ∧ u.txSide = s.txSide := by
  obtain ⟨hresp, hcurrent, hslot, -⟩ :=
    State.rxb_completes (s := { s with inputs := [], port := .p }) (b := b) hlast
  exact ⟨_, step_rxb s b, hresp, hcurrent, hslot, Instr.effect_txSide rfl _⟩

/-- The bytes that a receiving slot still misses, one `RXB` each: the last one completes the packet. -/
theorem State.runInputs_rxFrame {raw : List Byte} {s : State} (h : s.cur.Receiving)
    (hl : s.cur.packet.cursor.toNat + raw.length = s.cur.packet.length.toNat) :
    s.responses (rxFrame raw) = List.replicate (raw.length - 1) (some 0x00) ++ [some 0x01] ∧
      ∃ t, s.runInputs (rxFrame raw) = some t ∧ t.current = nextSlot s.current ∧
        t.slot s.current = (s.cur.storeAll raw).postProcess s.timeIn ∧ t.txSide = s.txSide := by
  have hlt : s.cur.packet.cursor.toNat < s.cur.packet.length.toNat := h.2
  induction raw generalizing s with
  | nil => exact absurd hl (Nat.ne_of_lt hlt)
  | cons b bs ih =>
    have hr : s.cur.packet.hasRoom = true := (Packet.hasRoom_iff _).2 hlt
    rw [rxFrame, List.map_cons]
    rw [List.length_cons] at hl
    rcases bs.length.eq_zero_or_pos with hnil | hpos
    · obtain rfl := List.length_eq_zero_iff.1 hnil
      obtain ⟨u, hstep, hresp, hcurrent, hslot, htx⟩ := step_rxb_completes (b := b) hl
      rw [State.responses_cons hstep, State.runInputs_cons hstep, hresp]
      exact ⟨rfl, u, rfl, hcurrent, hslot, htx⟩
    · have hnot : s.cur.completes b = false := by
        rw [← Bool.not_eq_true, s.cur.completes_iff]
        omega
      obtain ⟨u, hstep, hresp, hcurrent, hcur, htime, htx⟩ := step_rxb_stores hnot
      have hrest : u.cur.packet.cursor.toNat + bs.length = u.cur.packet.length.toNat := by
        rw [hcur, Slot.store_packet, Packet.append_cursor hr, Packet.append_length]
        omega
      obtain ⟨hresps, t, hrun, htcurrent, htslot, httx⟩ :=
        ih (hcur ▸ h.store hnot) hrest (by omega)
      rw [hcurrent] at htcurrent htslot
      rw [State.responses_cons hstep, State.runInputs_cons hstep]
      refine ⟨?_, t, hrun, htcurrent, ?_, httx.trans htx⟩
      · have hcount : (b :: bs).length - 1 = bs.length - 1 + 1 := by
          rw [List.length_cons]
          omega
        rw [hcount, List.replicate_succ, List.cons_append, ← hresps, hresp]
        rfl
      · rw [htslot, hcur, htime, Slot.storeAll_cons]

/-- What a whole frame received into the empty current slot leaves in it. -/
theorem State.frame_received {s : State} {raw : List Byte} (hinv : s.Inv)
    (hc : s.cur.packet.cursor = 0) (hl : raw.length = s.cur.packet.length.toNat) :
    s.cur.Receiving ∧ ∃ t, s.runInputs (rxFrame raw) = some t ∧
      t.slot s.current = (s.cur.storeAll raw).postProcess s.timeIn := by
  obtain ⟨⟨hrecv, -⟩, -⟩ := s.inv_iff.1 hinv
  obtain ⟨-, t, hrun, -, hslot, -⟩ := State.runInputs_rxFrame hrecv (by simpa [hc] using hl)
  exact ⟨hrecv, t, hrun, hslot⟩

/-- Settles O48: the run is `State.runInputs_rxFrame`, the bytes are those `Packet.appendN` stores, and
the verdict is `Slot.postProcess_storeAll_cases`. -/
theorem frameIsReceivedAndJudged : Obligations.FrameIsReceivedAndJudged := by
  intro s raw hinv hc hl
  obtain ⟨⟨hrecv, -⟩, -⟩ := s.inv_iff.1 hinv
  obtain ⟨hresp, t, hrun, hcurrent, hslot, htx⟩ :=
    State.runInputs_rxFrame hrecv (by simpa [hc] using hl)
  have hfits : s.cur.packet.fits raw = raw.length := by simp [Packet.fits, hc, hl]
  have hpacket : (t.slot s.current).packet = s.cur.packet.appendN raw := by
    rw [hslot, Slot.postProcess_packet]
    rfl
  refine ⟨hresp, t, hrun, hcurrent, ?_, fun i => ?_, ?_, ?_, htx⟩
  · rw [hpacket, Packet.done_iff, ← BitVec.toNat_inj, Packet.appendN_cursor, Packet.appendN_length,
      hfits, hl, hc]
    exact Nat.zero_add _
  · rw [hpacket, Packet.appendN_bytes, hfits, hc]
    simp [Reg.stored]
  · rw [hslot]
    rcases Slot.postProcess_storeAll_cases hrecv hc hl s.timeIn with
      ⟨hv, e⟩ | ⟨hv, hsum, e⟩ | ⟨hv, hsum, e⟩
    · simp [e, hv]
    · simp [e, hv, hsum]
    · simp [e, hv, hsum]
  · rw [hslot, Slot.postProcess_timecode]
    rfl

end Sys2Proof.Machine
end

section
/-! PROOFS. The errors that the two checks of the pipeline catch (spec 41_rxpacket.md R157): one
inverted bit makes a symbol invalid, one inverted symbol changes one decoded byte. -/

namespace Sys2Proof.Machine

/-! ### Inverted bits of a raw byte -/

theorem getLsbD_bitMask (b : Nat) {k : Nat} (hk : k < 8) :
    ((1 : Byte) <<< b).getLsbD k = decide (k = b) := by
  refine (BitVec.getLsbD_twoPow b k).trans ?_
  rw [← Bool.decide_and, decide_eq_decide]
  omega

theorem getLsbD_symbolMask (m : Nat) {k : Nat} (hk : k < 8) :
    ((3 : Byte) <<< (2 * m)).getLsbD k = decide (k / 2 = m) := by
  have hthree (j : Nat) : (3 : Byte).getLsbD j = decide (j < 2) := by
    refine (BitVec.getLsbD_ofNat 8 3 j).trans ?_
    rw [show 3 = 2 ^ 2 - 1 from rfl, Nat.testBit_two_pow_sub_one,
      ← Bool.decide_and, decide_eq_decide]
    omega
  rw [BitVec.getLsbD_shiftLeft, hthree, ← decide_not, ← Bool.decide_and, ← Bool.decide_and,
    decide_eq_decide]
  omega

/-- One inverted bit makes the two bits of its symbol equal. -/
theorem validRaw_invertBit {e : Byte} (he : validRaw e = true) {b : Nat} (hb : b < 8) :
    validRaw (e ^^^ ((1 : Byte) <<< b)) = false := by
  rw [← Bool.not_eq_true]
  intro hinverted
  have hi : b / 2 < 4 := by omega
  have hbefore := (validRaw_iff e).1 he ⟨b / 2, hi⟩
  have hafter := (validRaw_iff _).1 hinverted ⟨b / 2, hi⟩
  rw [BitVec.getLsbD_xor, BitVec.getLsbD_xor, getLsbD_bitMask b (by omega),
    getLsbD_bitMask b (by omega)] at hafter
  rcases Nat.mod_two_eq_zero_or_one b with heven | hodd
  · have hlo : 2 * (b / 2) = b := by omega
    exact hbefore (by simpa [hlo] using hafter)
  · have hhi : 2 * (b / 2) + 1 = b := by omega
    have hlo : 2 * (b / 2) ≠ b := by omega
    exact hbefore (by simpa [hhi, hlo] using hafter)

/-- An inverted symbol keeps its two bits different. -/
theorem validRaw_invertSymbol {e : Byte} (he : validRaw e = true) (m : Nat) :
    validRaw (e ^^^ ((3 : Byte) <<< (2 * m))) = true := by
  rw [validRaw_iff] at he ⊢
  intro i
  have hi := he i
  have hsame : (2 * i.val + 1) / 2 = 2 * i.val / 2 := by omega
  rw [BitVec.getLsbD_xor, BitVec.getLsbD_xor, getLsbD_symbolMask m (by omega),
    getLsbD_symbolMask m (by omega), hsame]
  simpa using hi

/-- An inverted symbol stands for the other data bit. -/
theorem nibble_invertSymbol_ne (one : ManchOne) (e : Byte) {m : Nat} (hm : m < 4) :
    nibble one (e ^^^ ((3 : Byte) <<< (2 * m))) ≠ nibble one e := by
  intro h
  have hbit : takenBit one (e ^^^ ((3 : Byte) <<< (2 * m))) m = takenBit one e m := by
    rw [← nibble_getLsbD one _ ⟨m, hm⟩, ← nibble_getLsbD one _ ⟨m, hm⟩, h]
  have hhi : (2 * m + 1) / 2 = m := by omega
  have hlo : 2 * m / 2 = m := by omega
  cases one with
  | sym10 =>
    rw [takenBit, BitVec.getLsbD_xor, getLsbD_symbolMask m (by omega), hhi] at hbit
    simp [takenBit] at hbit
  | sym01 =>
    rw [takenBit, BitVec.getLsbD_xor, getLsbD_symbolMask m (by omega), hlo] at hbit
    simp [takenBit] at hbit

/-! ### One raw byte of a frame replaced -/

theorem validRaw_getD {raw : List Byte} (h : frameValid raw = true) {i : Nat} (hi : i < raw.length) :
    validRaw (raw.getD i 0) = true := by
  rw [List.getD_eq_getElem _ _ hi]
  exact List.all_eq_true.1 h _ (List.getElem_mem hi)

theorem frameValid_set {raw : List Byte} (h : frameValid raw = true) {i : Nat} (hi : i < raw.length)
    (e : Byte) : frameValid (raw.set i e) = validRaw e := by
  unfold frameValid at h ⊢
  rw [List.all_eq_true] at h
  rw [Bool.eq_iff_iff, List.all_eq_true]
  constructor
  · exact fun hall => hall e (List.mem_set hi e)
  · rintro he x hx
    rcases List.mem_or_eq_of_mem_set hx with hmem | rfl
    · exact h x hmem
    · exact he

theorem getD_set {raw : List Byte} {i : Nat} (hi : i < raw.length) (e : Byte) (k : Nat) :
    (raw.set i e).getD k 0 = if i = k then e else raw.getD k 0 := by
  simp only [List.getD_eq_getElem?_getD, List.getElem?_set]
  split <;> simp

theorem decodeFrame_getElem (raw : List Byte) (j : Nat) (hj : j < (decodeFrame raw).length) :
    (decodeFrame raw)[j] =
      decodePair config.manchOne (raw.getD (2 * j) 0) (raw.getD (2 * j + 1) 0) := by
  simp [decodeFrame]

theorem decodePair_inj {one : ManchOne} {hi lo hi' lo' : Byte}
    (h : decodePair one hi lo = decodePair one hi' lo') :
    nibble one hi = nibble one hi' ∧ nibble one lo = nibble one lo' := by
  have hleft (u v : BitVec 4) : (u ++ v).extractLsb' 4 4 = u := BitVec.extractLsb'_append_eq_left
  have hright (u v : BitVec 4) : (u ++ v).extractLsb' 0 4 = v := BitVec.extractLsb'_append_eq_right
  exact ⟨(hleft _ _).symm.trans ((congrArg (BitVec.extractLsb' 4 4) h).trans (hleft _ _)),
    (hright _ _).symm.trans ((congrArg (BitVec.extractLsb' 0 4) h).trans (hright _ _))⟩

/-- A raw byte with another nibble changes exactly the decoded byte of its pair (R145). -/
theorem decodeFrame_set {raw : List Byte} (heven : raw.length % 2 = 0) {i : Nat}
    (hi : i < raw.length) {e : Byte}
    (he : nibble config.manchOne e ≠ nibble config.manchOne (raw.getD i 0)) :
    ∃ (hj : i / 2 < (decodeFrame raw).length) (d : Byte),
      decodeFrame (raw.set i e) = (decodeFrame raw).set (i / 2) d ∧ d ≠ (decodeFrame raw)[i / 2] := by
  have hj : i / 2 < (decodeFrame raw).length := by rw [decodeFrame_length]; omega
  have hj' : i / 2 < (decodeFrame (raw.set i e)).length := by
    rwa [decodeFrame_length, List.length_set, ← decodeFrame_length]
  refine ⟨hj, (decodeFrame (raw.set i e))[i / 2], ?_, ?_⟩
  · refine List.ext_getElem (by simp [decodeFrame_length]) fun j h1 h2 => ?_
    rw [List.getElem_set]
    split
    · subst_vars; rfl
    · have h3 : i ≠ 2 * j := by omega
      have h4 : i ≠ 2 * j + 1 := by omega
      rw [decodeFrame_getElem, decodeFrame_getElem, getD_set hi, getD_set hi, if_neg h3, if_neg h4]
  · rw [decodeFrame_getElem, decodeFrame_getElem, getD_set hi, getD_set hi]
    intro h
    obtain ⟨h1, h2⟩ := decodePair_inj h
    rcases Nat.mod_two_eq_zero_or_one i with h0 | h0
    · have hidx : 2 * (i / 2) = i := by omega
      rw [hidx, if_pos rfl] at h1
      exact he h1
    · have hidx : 2 * (i / 2) + 1 = i := by omega
      rw [hidx, if_pos rfl] at h2
      exact he h2

/-! ### One decoded byte replaced -/

theorem modularSum_eq_sum (bs : List Byte) : modularSum bs = bs.sum := List.sum_eq_foldl.symm

/-- A sum modulo 256 tells every change of one byte. -/
theorem modularSum_set_ne {bs : List Byte} {j : Nat} (hj : j < bs.length) {d : Byte}
    (hd : d ≠ bs[j]) : modularSum (bs.set j d) ≠ modularSum bs := by
  rw [modularSum_eq_sum, modularSum_eq_sum, List.sum_set', dif_pos hj]
  intro h
  have hzero := add_eq_left.1 h
  exact hd (neg_add_eq_zero.1 hzero).symm

/-- The checksum tells every change of one decoded byte: either the sum or the last byte changes, not
both (R148). -/
theorem checksumOk_set {dec : List Byte} (h : checksumOk dec = true) {j : Nat} (hj : j < dec.length)
    {d : Byte} (hd : d ≠ dec[j]) : checksumOk (dec.set j d) = false := by
  rw [checksumOk, beq_iff_eq] at h
  rw [checksumOk, beq_eq_false_iff_ne, List.length_set, List.take_set, getD_set hj]
  split
  · subst_vars
    rw [List.set_eq_of_length_le (by simp), h, List.getD_eq_getElem _ _ hj]
    exact hd.symm
  · have hlt : j < (dec.take (dec.length - 1)).length := by simp; omega
    rw [← h]
    exact modularSum_set_ne hlt (by simpa using hd)

/-! ### Whole frames with one error -/

/-- A frame with an invalid symbol writes nothing but the verdict and the time (R147). -/
theorem State.invalid_frame_received {s : State} {raw : List Byte} (hinv : s.Inv)
    (hc : s.cur.packet.cursor = 0) (hl : raw.length = s.cur.packet.length.toNat)
    (hv : frameValid raw = false) :
    ∃ t, s.runInputs (rxFrame raw) = some t ∧
      t.slot s.current =
        { s.cur.storeAll raw with health := .bad, timecode := .stored s.timeIn } := by
  obtain ⟨hrecv, t, hrun, hslot⟩ := State.frame_received hinv hc hl
  refine ⟨t, hrun, hslot.trans ?_⟩
  rcases Slot.postProcess_storeAll_cases hrecv hc hl s.timeIn with ⟨-, e⟩ | ⟨h, -⟩ | ⟨h, -⟩
  · exact e
  · rw [hv] at h; cases h
  · rw [hv] at h; cases h

/-- A frame with valid symbols and a wrong checksum writes the decoded bytes, the verdict and the time
(R148). -/
theorem State.mismatched_frame_received {s : State} {raw : List Byte} (hinv : s.Inv)
    (hc : s.cur.packet.cursor = 0) (hl : raw.length = s.cur.packet.length.toNat)
    (hv : frameValid raw = true) (hsum : checksumOk (decodeFrame raw) = false) :
    ∃ t, s.runInputs (rxFrame raw) = some t ∧
      t.slot s.current = { (s.cur.storeAll raw).deManchesterise with
        health := .bad, timecode := .stored s.timeIn } := by
  obtain ⟨hrecv, t, hrun, hslot⟩ := State.frame_received hinv hc hl
  refine ⟨t, hrun, hslot.trans ?_⟩
  rcases Slot.postProcess_storeAll_cases hrecv hc hl s.timeIn with ⟨h, -⟩ | ⟨-, -, e⟩ | ⟨-, h, -⟩
  · rw [hv] at h; cases h
  · exact e
  · rw [hsum] at h; cases h

/-- Settles O49: the inverted bit's symbol is invalid, so the frame is. -/
theorem singleBitErrorIsCaught : Obligations.SingleBitErrorIsCaught := by
  intro s raw i b hinv hc hl hvalid hi hb
  have hx := validRaw_getD hvalid hi
  have hbad := (frameValid_set hvalid hi _).trans (validRaw_invertBit hx hb)
  obtain ⟨t, hrun, hslot⟩ := State.invalid_frame_received hinv hc (by simpa using hl) hbad
  refine ⟨t, hrun, ?_⟩
  rw [hslot]
  exact ⟨rfl, rfl, rfl, rfl⟩

/-- Settles O50: the inverted symbol changes one decoded byte (`decodeFrame_set`), and the checksum
tells (`checksumOk_set`). The length of every type is even, so that byte is one of the frame's. -/
theorem invertedSymbolIsCaught : Obligations.InvertedSymbolIsCaught := by
  intro s raw i m hinv hc hl hvalid hsum hi hm bad
  have hx := validRaw_getD hvalid hi
  have hbad : frameValid bad = true :=
    (frameValid_set hvalid hi _).trans (validRaw_invertSymbol hx m)
  have heven : raw.length % 2 = 0 := by
    obtain ⟨hslots, -⟩ := hinv
    obtain ⟨-, htype, -⟩ : s.cur.Inv := hslots s.current
    rw [hl, htype]
    exact config_len_even _
  obtain ⟨hj, d, hdec, hd⟩ := decodeFrame_set heven hi (nibble_invertSymbol_ne _ _ hm)
  have hmismatch : checksumOk (decodeFrame bad) = false := by
    rw [hdec]
    exact checksumOk_set hsum hj hd
  obtain ⟨t, hrun, hslot⟩ :=
    State.mismatched_frame_received hinv hc (by simpa [bad] using hl) hbad hmismatch
  refine ⟨hbad, t, hrun, ?_⟩
  rw [hslot]
  exact ⟨rfl, rfl, rfl⟩

end Sys2Proof.Machine
end

section
/-! PROOFS. The commands on the TX packet (spec 42_txpacket.md R171 to R182): the header of `TXASM`,
assembly, `TXNEXT` and `TXRST`. -/

namespace Sys2Proof.Machine

/-! ### Assembly -/

theorem Packet.setLength_length_toNat (p : Packet) (n : Nat) :
    (p.setLength n).length.toNat = min n config.capacity := by
  have hcap : min n config.capacity < 2 ^ 8 :=
    Nat.lt_of_le_of_lt (Nat.min_le_right _ _) (by decide)
  rw [Packet.setLength_length, BitVec.toNat_ofNat, Nat.mod_eq_of_lt hcap]

/-- The whole frame, or what the capacity leaves of it (R173). -/
theorem Packet.assemble_length_toNat (p : Packet) (bs : List Byte) (c : Bool) :
    (p.assemble bs c).length.toNat = min (frame bs c).length config.capacity := by
  rw [Packet.assemble, Packet.rewind_length, Packet.appendN_length, Packet.setLength_length_toNat]

theorem Packet.assemble_bytes (p : Packet) (bs : List Byte) (c : Bool) (i : Fin config.capacity) :
    (p.assemble bs c).bytes[i] =
      if i.val < (frame bs c).length then .stored ((frame bs c).getD i.val 0) else p.bytes[i] := by
  rw [Packet.assemble, Packet.rewind_bytes, Packet.appendN_bytes, Packet.setLength_cursor,
    Packet.rewind_cursor, Packet.fits, Packet.setLength_length_toNat]
  refine if_congr ?_ rfl rfl
  simp

/-- Settles O37: the length is set before the frame is appended, so `Packet.appendN_bytes` stores what
fits below the capacity. -/
theorem assembleStoresTheFrame : Obligations.AssembleStoresTheFrame := by
  intro tx payload c
  exact ⟨tx.assemble_length_toNat payload c, tx.assemble_cursor payload c,
    tx.assemble_bytes payload c⟩

theorem exec_txasm {s : State} (hport : s.port = .c) (c : Bool) (n : Byte) :
    exec (.txasm c n) s = .next ((s.startAssembly c n).respond 0) :=
  State.onPort_accepted hport _

/-- Settles O36, by the two cases of `State.startAssembly_cases`. -/
theorem txasmHeaderStartsAssembly : Obligations.TxasmHeaderStartsAssembly := by
  intro c n s hport
  rw [exec_txasm hport]
  rcases s.startAssembly_cases c n with ⟨hzero, e⟩ | ⟨hpos, e⟩
  · rw [e, if_pos hzero]
    rfl
  · rw [e, if_neg hpos]
    rfl

/-! ### Emission and rewinding -/

theorem Packet.advance_cursor_toNat {p : Packet} (hr : p.hasRoom = true) :
    p.advance.cursor.toNat = p.cursor.toNat + 1 := by
  have hlt := p.hasRoom_iff.1 hr
  have hmax := p.length.isLt
  exact BitVec.toNat_add_of_lt (by simpa using by omega)

@[simp] theorem Packet.advance_byteAt (p : Packet) (i : Nat) : p.advance.byteAt i = p.byteAt i := rfl

theorem exec_txnext {s : State} (hport : s.port = .c) : exec .txnext s = .next s.emitNext :=
  State.onPort_accepted hport _

/-- With bytes left `TXNEXT` emits the byte at the cursor (R180). -/
theorem State.emitNext_hasRoom {s : State} (hr : s.tx.hasRoom = true) :
    s.emitNext = { s with
      tx := s.tx.advance, response := some (s.tx.byteAt s.tx.cursor.toNat) } := by
  rcases s.emitNext_cases with ⟨-, e⟩ | ⟨hfull, -⟩
  · exact e
  · rw [hr] at hfull
    cases hfull

/-- Settles O40: the cursor is below the capacity by the packet's bounds, so the byte emitted is an
element of the array, and `TXDONE` compares the advanced cursor with the length. -/
theorem txnextEmitsTheNextByte : Obligations.TxnextEmitsTheNextByte := by
  refine ⟨instrDecodesFromItsEncoding .txnext, fun s hinv hport hlt => ?_⟩
  have hr : s.tx.hasRoom = true := s.tx.hasRoom_iff.2 hlt
  have hnext := Packet.advance_cursor_toNat hr
  have hcap : s.tx.cursor.toNat < config.capacity := Nat.lt_of_lt_of_le hlt hinv.2
  refine ⟨s.tx.advance, s.tx.bytes[s.tx.cursor.toNat], ?_, Vector.getElem?_eq_getElem hcap, rfl, rfl,
    hnext, ?_⟩
  · rw [exec_txnext hport, State.emitNext_hasRoom hr, s.tx.byteAt_fin ⟨_, hcap⟩]
    rfl
  · rw [Packet.done_iff, ← BitVec.toNat_inj, hnext, Packet.advance_length]

/-- Settles O41: a drained packet has no room, so `State.emitNext_cases` leaves the free value. -/
theorem txnextOnDrainedPacketChangesNothing : Obligations.TxnextOnDrainedPacketChangesNothing := by
  intro s hport hdrained
  rw [exec_txnext hport]
  rcases s.emitNext_cases with ⟨hr, -⟩ | ⟨-, e⟩
  · have hlt := s.tx.hasRoom_iff.1 hr
    rw [hdrained] at hlt
    exact absurd hlt (Nat.lt_irrefl _)
  · rw [e]
    rfl

/-- Settles O42: `TXRST` is `Packet.rewind`, and a rewound packet is done when its length is 0 too. -/
theorem txrstRewindsTheTxPacket : Obligations.TxrstRewindsTheTxPacket := by
  refine ⟨instrDecodesFromItsEncoding .txrst, fun s hport => ⟨State.onPort_accepted hport _, ?_⟩⟩
  rw [Packet.done_iff]
  exact eq_comm

end Sys2Proof.Machine
end

section
/-! PROOFS. Whole operations on port C (spec 42_txpacket.md R170 to R180; 30_encoding.md R101): a
`TXASM` with all its data words, and the drain of the TX packet. -/

namespace Sys2Proof.Machine

/-! ### A whole `TXASM` -/

theorem State.runInputs_append {s t : State} {is js : List Input} (h : s.runInputs is = some t) :
    s.runInputs (is ++ js) = t.runInputs js := by
  induction is generalizing s with
  | nil =>
    obtain rfl : s = t := Option.some.inj h
    rfl
  | cons i is ih =>
    have hstep := step_cons (s := { s with inputs := [i] }) rfl
    rw [State.runInputs_cons hstep] at h
    rw [List.cons_append, State.runInputs_cons hstep, ih h]

/-- The header of a `TXASM` without data words assembles the empty payload (R172). -/
theorem step_txasm_empty {s : State} (hidle : s.asm.active = false) (c : Bool) :
    ∃ u, step { s with inputs := [.word .c (encode (.txasm c 0))] } = .next u ∧
      u.txSide = (s.tx.assemble [] c, s.asm) :=
  ⟨_, step_accepted (instrDecodesFromItsEncoding (.txasm c 0)) (by simp [hidle]) rfl, rfl⟩

/-- The last data word assembles the frame and leaves data-word mode (R101). -/
theorem step_last_data {s : State} (hactive : s.asm.active = true)
    (hlast : s.asm.buf.length + 1 = s.asm.n.toNat) (w : Word) :
    ∃ u, step { s with inputs := [.word .c w] } = .next u ∧
      u.txSide = (s.tx.assemble (s.asm.buf ++ [dataByte w]) s.asm.c,
        { s.asm with active := false, buf := [] }) := by
  refine ⟨_, step_data rfl hactive, ?_⟩
  rcases State.takeDataWord_cases { s with inputs := [], port := .c } w with ⟨-, e⟩ | ⟨hmore, -⟩
  · rw [e]
    rfl
  · exact absurd hlast hmore

/-- The header and all the data words it announces, with nothing between them. -/
theorem State.runInputs_txasm {s : State} (hidle : s.asm.active = false) (c : Bool) {n : Byte}
    {ds : List Word} (hlen : ds.length = n.toNat) :
    ∃ t, s.runInputs ((encode (.txasm c n) :: ds).map (Input.word .c)) = some t ∧
      t.asm.active = false ∧ t.tx = s.tx.assemble (ds.map dataByte) c := by
  rcases ds.eq_nil_or_concat with rfl | ⟨init, d, rfl⟩
  case inl =>
    obtain rfl : n = 0 := BitVec.eq_of_toNat_eq hlen.symm
    obtain ⟨u, hstep, hu⟩ := step_txasm_empty hidle c
    obtain ⟨htx, hasm⟩ := Prod.mk.inj hu
    exact ⟨u, State.runInputs_cons hstep, hasm ▸ hidle, htx⟩
  case inr =>
    rw [List.concat_eq_append] at hlen ⊢
    rw [List.length_append, List.length_singleton] at hlen
    have hn : n ≠ 0 := by
      rintro rfl
      exact absurd hlen (Nat.succ_ne_zero _)
    obtain ⟨u, hheader, hu⟩ := step_txasm_header hidle c hn
    obtain ⟨hutx, huasm⟩ := Prod.mk.inj hu
    obtain ⟨v, hdata, hv⟩ := State.runInputs_dataWords (s := u) (ds := init) (by rw [huasm])
      (by simp only [huasm, List.length_nil]; omega)
    obtain ⟨hvtx, hvasm⟩ := Prod.mk.inj hv
    rw [huasm, List.nil_append] at hvasm
    obtain ⟨t, hlast, ht⟩ := step_last_data (s := v) (by rw [hvasm])
      (by rw [hvasm, List.length_map]; exact hlen) d
    obtain ⟨httx, htasm⟩ := Prod.mk.inj ht
    refine ⟨t, ?_, by rw [htasm], ?_⟩
    · rw [List.map_cons, State.runInputs_cons hheader, List.map_append,
        State.runInputs_append hdata]
      exact State.runInputs_cons hlast
    · rw [httx, hvtx, hutx, hvasm, List.map_append]
      rfl

/-- Settles O38: only the port C words matter (`State.runInputs_txSide_eq_words`), and those are a whole
`TXASM`. -/
theorem txasmIsAtomicUnderInterleaving : Obligations.TxasmIsAtomicUnderInterleaving := by
  intro s ins c n ds hidle hrst hlen hwords
  obtain ⟨t, v, hrun, hrunWords, hsame⟩ := s.runInputs_txSide_eq_words hrst
  obtain ⟨htx, hasm⟩ := State.txSide_eq_iff.1 hsame
  obtain ⟨v', hrunTxasm, hactive, hvtx⟩ := State.runInputs_txasm hidle c hlen
  rw [hwords, hrunTxasm] at hrunWords
  obtain rfl : v' = v := Option.some.inj hrunWords
  exact ⟨t, hrun, hasm ▸ hactive, htx.trans hvtx⟩

/-! ### The drain -/

theorem step_txnext {s : State} (hidle : s.asm.active = false) (hr : s.tx.hasRoom = true) :
    ∃ u, step { s with inputs := [.word .c (encode .txnext)] } = .next u ∧
      u.response = some (s.tx.byteAt s.tx.cursor.toNat) ∧ u.txSide = (s.tx.advance, s.asm) := by
  refine ⟨_, step_accepted (instrDecodesFromItsEncoding .txnext) (by simp [hidle]) rfl, ?_⟩
  rw [Instr.effect, State.emitNext_hasRoom (by exact hr)]
  exact ⟨rfl, rfl⟩

/-- As many `TXNEXT` as bytes are left. -/
theorem State.runInputs_drain {n : Nat} {s : State} (hidle : s.asm.active = false)
    (hn : s.tx.cursor.toNat + n = s.tx.length.toNat) :
    s.responses (drain n) =
        (List.range n).map (fun i => some (s.tx.byteAt (s.tx.cursor.toNat + i))) ∧
      ∃ t, s.runInputs (drain n) = some t ∧ t.tx = { s.tx with cursor := s.tx.length } := by
  induction n generalizing s with
  | zero =>
    have hdone : s.tx.cursor = s.tx.length := BitVec.eq_of_toNat_eq hn
    exact ⟨rfl, s, rfl, by rw [← hdone]⟩
  | succ n ih =>
    have hr : s.tx.hasRoom = true := s.tx.hasRoom_iff.2 (by omega)
    have hcursor := Packet.advance_cursor_toNat hr
    obtain ⟨u, hstep, hresp, hu⟩ := step_txnext hidle hr
    obtain ⟨htx, hasm⟩ := Prod.mk.inj hu
    obtain ⟨hresps, t, hrun, ht⟩ := ih (s := u) (by rw [hasm, hidle])
      (by rw [htx, hcursor, Packet.advance_length]; omega)
    have hdrain : drain (n + 1) = .word .c (encode .txnext) :: drain n := rfl
    rw [hdrain, State.responses_cons hstep, State.runInputs_cons hstep]
    refine ⟨?_, t, hrun, by rw [ht, htx]; rfl⟩
    rw [hresp, hresps, htx, hcursor, List.range_succ_eq_map, List.map_cons, List.map_map]
    simp [Function.comp_def, Nat.add_assoc, Nat.add_comm 1]

/-- Settles O43: the packet's bounds make the cursor and the bytes left add up to the length. -/
theorem drainEmitsTheRemainingBytes : Obligations.DrainEmitsTheRemainingBytes := by
  intro s hinv hidle
  obtain ⟨hle, -⟩ := s.tx.inv_iff.1 hinv
  exact State.runInputs_drain hidle (Nat.add_sub_cancel' hle)

end Sys2Proof.Machine
end

section
/-! PROOFS. The round trip (spec 42_txpacket.md R183): what is assembled and drained, Manchester encoded
outside the block, is received back. -/

namespace Sys2Proof.Machine

/-! ### The reference encoder on whole frames -/

theorem encBytes_cons (one : ManchOne) (d : Byte) (ds : List Byte) :
    encBytes one (d :: ds) = encByte one d ++ encBytes one ds := rfl

theorem encBytes_length (one : ManchOne) (ds : List Byte) :
    (encBytes one ds).length = 2 * ds.length := by
  induction ds with
  | nil => rfl
  | cons d ds ih =>
    rw [encBytes_cons, List.length_append, ih, List.length_cons, encByte, List.length_cons,
      List.length_singleton]
    omega

theorem frameValid_encBytes (one : ManchOne) (ds : List Byte) :
    frameValid (encBytes one ds) = true := by
  induction ds with
  | nil => rfl
  | cons d ds ih =>
    obtain ⟨hi, lo, henc, hhi, hlo, -⟩ := decoderInvertsReferenceEncoder one d
    rw [frameValid] at ih ⊢
    simp [encBytes_cons, henc, hhi, hlo, ih]

theorem decodeFrame_cons_cons (hi lo : Byte) (raw : List Byte) :
    decodeFrame (hi :: lo :: raw) = decodePair config.manchOne hi lo :: decodeFrame raw := by
  have hlen : (hi :: lo :: raw).length / 2 = raw.length / 2 + 1 := by
    rw [List.length_cons, List.length_cons]
    omega
  rw [decodeFrame, hlen, List.range_succ_eq_map, List.map_cons, List.map_map]
  rfl

theorem decodeFrame_encBytes (ds : List Byte) : decodeFrame (encBytes config.manchOne ds) = ds := by
  induction ds with
  | nil => rfl
  | cons d ds ih =>
    obtain ⟨hi, lo, henc, -, -, hdec⟩ := decoderInvertsReferenceEncoder config.manchOne d
    rw [encBytes_cons, henc]
    exact (decodeFrame_cons_cons hi lo _).trans (congrArg₂ List.cons hdec ih)

/-! ### A payload followed by its checksum -/

/-- What is transmitted with a checksum, without preamble, sync word and tail. -/
def checked (payload : List Byte) : List Byte := payload ++ [modularSum payload]

@[simp] theorem checked_length (payload : List Byte) :
    (checked payload).length = payload.length + 1 := by
  simp [checked]

theorem frame_length (payload : List Byte) :
    (frame payload true).length = payload.length + 8 := by
  simp [frame, config]

theorem frame_strip (payload : List Byte) :
    ((frame payload true).drop (config.preamble.length + config.sync.length)).take
      (payload.length + 1) = checked payload := by
  have hframe : frame payload true =
      (config.preamble ++ config.sync) ++ (checked payload ++ config.tail) := by
    simp [frame, checked]
  rw [hframe, List.drop_left' (by simp), List.take_left' (by simp)]

theorem checksumOk_checked (payload : List Byte) : checksumOk (checked payload) = true := by
  simp [checksumOk, checked]

theorem checked_getD {payload : List Byte} {j : Nat} (hj : j < payload.length) :
    (checked payload).getD j 0 = payload.getD j 0 :=
  List.getD_append _ _ _ _ hj

theorem fieldAt_checked {payload : List Byte} {o : Nat} (ho : o + 1 < payload.length) :
    fieldAt (checked payload) o = fieldAt payload o := by
  rw [fieldAt, fieldAt, checked_getD (by omega), checked_getD ho]

/-- Every field of a layout lies before the checksum (the constraint of R6). -/
theorem layout_lt_checksum (t : TxType) :
    ∀ o ∈ (config.layout t).idOff :: (config.layout t).wattsOff, o + 2 < config.dlen t := by
  cases t <;> decide

theorem layout_wattsOff_length (t : TxType) :
    (config.layout t).wattsOff.length = (config.layout t).nWatts := by
  cases t <;> rfl

theorem wattAt_checked {payload : List Byte} {t : TxType} (hl : payload.length + 1 = config.dlen t)
    (c : Nat) : wattAt t (checked payload) c = wattAt t payload c := by
  unfold wattAt
  split
  case isTrue hc =>
    rw [← layout_wattsOff_length] at hc
    have hoff := layout_lt_checksum t _ (List.mem_cons_of_mem _ (List.getElem_mem hc))
    rw [List.getD_eq_getElem _ _ hc]
    exact fieldAt_checked (by omega)
  case isFalse => rfl

/-! ### The transmit side of the round trip -/

theorem Packet.assemble_byteAt (p : Packet) {bs : List Byte} {c : Bool}
    (hfit : (frame bs c).length ≤ config.capacity) {i : Nat} (hi : i < (frame bs c).length) :
    (p.assemble bs c).byteAt i = (frame bs c)[i] := by
  rw [Packet.byteAt_fin _ ⟨i, by omega⟩, Packet.assemble_bytes, if_pos hi, Reg.stored_value,
    List.getD_eq_getElem _ _ hi]

/-- A drain of a freshly assembled packet emits the frame. -/
theorem State.drain_assembled {s : State} (hidle : s.asm.active = false) {p : Packet}
    {bs : List Byte} {c : Bool} (htx : s.tx = p.assemble bs c)
    (hfit : (frame bs c).length ≤ config.capacity) :
    (s.responses (drain s.tx.length.toNat)).filterMap (fun r => r) = frame bs c ∧
      ∃ t, s.runInputs (drain s.tx.length.toNat) = some t ∧ t.tx.done = true := by
  have hcursor : s.tx.cursor.toNat = 0 := by rw [htx]; rfl
  have hlen : s.tx.length.toNat = (frame bs c).length := by
    rw [htx, Packet.assemble_length_toNat, Nat.min_eq_left hfit]
  obtain ⟨hresp, t, hrun, ht⟩ :=
    State.runInputs_drain hidle (by rw [hcursor, Nat.zero_add] : _ = s.tx.length.toNat)
  refine ⟨?_, t, hrun, by rw [ht, Packet.done_iff]⟩
  rw [hresp, List.filterMap_map]
  refine List.ext_getElem (by simp [hlen]) fun i h1 h2 => ?_
  simp [htx, Packet.assemble_byteAt p hfit h2]

theorem State.runInputs_rxView_of_words {ws : List Word} {s t : State}
    (h : s.runInputs (ws.map (Input.word .c)) = some t) : t.rxView = s.rxView := by
  induction ws generalizing s with
  | nil =>
    obtain rfl : s = t := Option.some.inj h
    rfl
  | cons w ws ih =>
    rw [List.map_cons, State.runInputs_cons (step_cons rfl)] at h
    exact (ih h).trans (State.takeInput_rxView_of_portC rfl)

theorem drain_eq_words (n : Nat) :
    drain n = (List.replicate n (encode .txnext)).map (Input.word .c) :=
  List.map_replicate.symm

/-! ### The receive side of the round trip -/

/-- The slot that a whole frame was received into, as the slot with all but the last byte and the last
byte stored in it. -/
theorem Slot.storeAll_eq_store {sl : Slot} (h : sl.Receiving) (hc : sl.packet.cursor = 0)
    {raw : List Byte} (hl : raw.length = sl.packet.length.toNat) :
    ∃ (most : Slot) (b : Byte), most.Inv ∧ most.packet.hasRoom = true ∧
      most.txType = sl.txType ∧ most.packet.length = sl.packet.length ∧
      most.frameWith b = raw ∧ sl.storeAll raw = most.store b := by
  have ⟨⟨⟨_, hcap⟩, _⟩, hpos⟩ := h
  rw [BitVec.lt_def] at hpos
  rcases raw.eq_nil_or_concat with rfl | ⟨bs, b, rfl⟩
  case inl =>
    rw [← hl] at hpos
    exact absurd hpos (Nat.not_lt_zero _)
  case inr =>
    rw [List.concat_eq_append] at hl ⊢
    rw [List.length_append, List.length_singleton] at hl
    obtain ⟨hinv, hlt⟩ := h.storeAll (bs := bs) (by rw [hc]; simp; omega)
    exact ⟨sl.storeAll bs, b, hinv, (Packet.hasRoom_iff _).2 hlt, rfl, Packet.appendN_length _ _,
      Slot.frameWith_storeAll hc hcap b hl, sl.storeAll_concat bs b⟩

/-- A good frame received into an empty slot: the verdict and the registers read off the raw bytes (R147,
R149, R150). -/
theorem Slot.postProcess_goodFrame {sl : Slot} (h : sl.Receiving) (hc : sl.packet.cursor = 0)
    {raw : List Byte} (hl : raw.length = sl.packet.length.toNat) (hv : frameValid raw = true)
    (hsum : checksumOk (decodeFrame raw) = true) (t : BitVec 32) :
    ((sl.storeAll raw).postProcess t).health = .ok ∧
      (∀ j : Fin config.dcap, j.val < raw.length / 2 →
        ((sl.storeAll raw).postProcess t).payload[j] = ⟨(decodeFrame raw).getD j.val 0, true⟩) ∧
      ((sl.storeAll raw).postProcess t).id =
        ⟨fieldAt (decodeFrame raw) (config.layout sl.txType).idOff, true⟩ ∧
      ∀ c : Fin 3, ((sl.storeAll raw).postProcess t).watts[c] =
        ⟨wattAt sl.txType (decodeFrame raw) c.val, true⟩ := by
  obtain ⟨most, b, hinv, hr, htype, hlen, hraw, hstore⟩ := Slot.storeAll_eq_store h hc hl
  subst hraw
  rw [hstore, ← htype]
  rcases Slot.postProcess_store_cases hinv hr b t with ⟨hbad, -⟩ | ⟨-, hbad, -⟩ | ⟨-, -, e⟩
  · rw [hv] at hbad; cases hbad
  · rw [hsum] at hbad; cases hbad
  · rw [e]
    refine ⟨rfl, fun j hj => ?_, congrArg Reg.stored (Slot.field16_store hinv.1 hr b _ ?_),
      fun c => ?_⟩
    · rw [Slot.frameWith_length] at hj
      exact (Slot.payload_store hinv.1 hr b j).trans (if_pos hj)
    · rw [hinv.2.1]
      exact idOff_lt _
    · exact (Slot.decodeWattage_watts _ c).trans
        (congrArg Reg.stored (Slot.wattReading_store hinv hr b c.val))

/-! ### The round trip -/

/-- The transmit half: a `TXASM` with a checksum and a drain emit the frame and leave the pool. -/
theorem State.payload_transmitted {s : State} (hidle : s.asm.active = false) {payload : List Byte}
    (hfit : (frame payload true).length ≤ config.capacity) :
    ∃ t u, s.runInputs (Command.present
        { port := .c, instr := .txasm true (BitVec.ofNat 8 payload.length), payload := payload })
          = some t ∧
      (t.responses (drain t.tx.length.toNat)).filterMap (fun r => r) = frame payload true ∧
      t.runInputs (drain t.tx.length.toNat) = some u ∧ u.tx.done = true ∧ u.rxView = s.rxView := by
  have hcount : (payload.map dataWord).length = (BitVec.ofNat 8 payload.length).toNat := by
    rw [frame_length, config_capacity] at hfit
    rw [List.length_map, BitVec.toNat_ofNat, Nat.mod_eq_of_lt (by omega)]
  obtain ⟨t, hasm, hidle', htx⟩ := State.runInputs_txasm hidle true hcount
  rw [List.map_map, Function.comp_def] at htx
  simp only [dataByte_dataWord, List.map_id'] at htx
  obtain ⟨hemitted, u, hdrain, hdone⟩ := State.drain_assembled hidle' htx hfit
  have hview := hdrain
  rw [drain_eq_words] at hview
  exact ⟨t, u, hasm, hemitted, hdrain, hdone, (State.runInputs_rxView_of_words hview).trans
    (State.runInputs_rxView_of_words hasm)⟩

/-- The receive half: a payload and its checksum, Manchester encoded, are a good frame. -/
theorem State.payload_received {s : State} (hrecv : s.cur.Receiving)
    (hc : s.cur.packet.cursor = 0) {payload : List Byte}
    (hl : payload.length + 1 = config.dlen s.cur.txType) :
    ∃ t, s.runInputs (rxFrame (encBytes config.manchOne (checked payload))) = some t ∧
      (t.slot s.current).health = .ok ∧
      (∀ j : Fin config.dcap, j.val < payload.length →
        (t.slot s.current).payload[j] = ⟨payload.getD j.val 0, true⟩) ∧
      (t.slot s.current).id = ⟨fieldAt payload (config.layout s.cur.txType).idOff, true⟩ ∧
      ∀ c : Fin 3, (t.slot s.current).watts[c] = ⟨wattAt s.cur.txType payload c.val, true⟩ := by
  have hraw : (encBytes config.manchOne (checked payload)).length = 2 * (payload.length + 1) := by
    rw [encBytes_length, checked_length]
  have hlen : (encBytes config.manchOne (checked payload)).length = s.cur.packet.length.toNat := by
    obtain ⟨⟨-, htype, -⟩, -⟩ := hrecv
    have heven := config_len_even s.cur.txType
    rw [hraw, hl, htype, Config.dlen]
    omega
  obtain ⟨-, t, hrun, -, hslot, -⟩ :=
    State.runInputs_rxFrame hrecv (by rw [hc, hlen]; exact Nat.zero_add _)
  obtain ⟨hok, hpayload, hid, hwatts⟩ :=
    Slot.postProcess_goodFrame hrecv hc hlen (frameValid_encBytes _ _)
      (by rw [decodeFrame_encBytes, checksumOk_checked]) s.timeIn
  rw [decodeFrame_encBytes] at hid hwatts
  simp only [decodeFrame_encBytes, hraw] at hpayload
  have hidOff := layout_lt_checksum s.cur.txType _ List.mem_cons_self
  rw [← hslot] at hok hpayload hid hwatts
  refine ⟨t, hrun, hok, fun j hj => ?_, ?_, fun c => ?_⟩
  · rw [hpayload j (by omega), checked_getD hj]
  · rw [hid, fieldAt_checked (by omega)]
  · rw [hwatts, wattAt_checked hl]

/-- The frame of a payload of the length of a type is not cut (R173). -/
theorem frame_length_le {payload : List Byte} {t : TxType}
    (hl : payload.length + 1 = config.dlen t) :
    (frame payload true).length ≤ config.capacity := by
  have hfits : config.dlen t + 7 ≤ config.capacity := by cases t <;> decide
  rw [frame_length]
  omega

/-- Settles O51: the transmit half (`State.payload_transmitted`) leaves the pool, so the receive half
(`State.payload_received`) starts from the slot it was given. -/
theorem transmittedPayloadIsReceivedBack : Obligations.TransmittedPayloadIsReceivedBack := by
  rintro s ty payload hinv hidle hc rfl hl
  obtain ⟨hrx, -⟩ := s.inv_iff.1 hinv
  obtain ⟨t1, t2, hasm, hemitted, hdrain, hdone, hview⟩ :=
    State.payload_transmitted hidle (frame_length_le hl)
  obtain ⟨hslots, hcurrent, -, -⟩ := State.rxView_eq_iff.1 hview
  have hcur : t2.cur = s.cur := State.cur_congr hslots hcurrent
  obtain ⟨hrecv, -⟩ := hrx.congr hview
  obtain ⟨t3, hreceived, hslot⟩ :=
    State.payload_received hrecv (by rw [hcur, hc]) (by rw [hcur, hl])
  rw [hcur, hcurrent] at hslot
  refine ⟨t1, t2, t3, hasm, hdrain, hdone, ?_, hslot⟩
  rw [hemitted, ← hl, frame_strip]
  exact hreceived

end Sys2Proof.Machine
end

section
/-! PROOFS. The commands of port P on the slot pool (spec 43_packetbuffer.md R192 to R197): `RXB`,
`RXTYPE` and `RXRST`. -/

namespace Sys2Proof.Machine

/-! ### `RXB` -/

/-- Whether or not it completes the packet, and whatever the pipeline makes of it, `RXB` appends its
byte to the packet of the slot that was current (R122, R191). -/
theorem State.rxb_packet (s : State) (b : Byte) :
    ((Instr.effect s (.rxb b)).slot s.current).packet = s.cur.packet.append b := by
  have happended : (s.cur.rxAppend b s.timeIn).packet = s.cur.packet.append b := by
    rcases s.cur.rxAppend_cases b s.timeIn with ⟨-, -, -, e⟩ | ⟨-, -, -, e⟩ | ⟨-, hfull, e⟩
    · rw [e, Slot.postProcess_packet, Slot.store_packet]
    · rw [e, Slot.store_packet]
    · rw [e, Packet.append_full hfull]
  rw [Instr.effect, State.respond_slot]
  rcases s.bufAppend_cases b with ⟨-, -, e⟩ | ⟨-, e⟩
  · rw [e, State.slot_rotated, if_neg (nextSlot_ne _), if_pos rfl, happended]
  · rw [e, State.slot_setCur, if_pos rfl, happended]

/-- Settles O23: `Buf.append` acts on the current slot alone, and there it only stores. -/
theorem rxbStoresByteMidFrame : Obligations.RxbStoresByteMidFrame := by
  intro b s hport hmid
  have hr : s.cur.packet.hasRoom = true := (Packet.hasRoom_iff _).2 (by omega)
  have hnot : s.cur.completes b = false := by
    rw [← Bool.not_eq_true, s.cur.completes_iff]
    omega
  refine ⟨s.cur.store b, ?_, rfl, Packet.append_length _ b, Packet.append_cursor hr b,
    Packet.append_bytes hr b⟩
  have hslot : s.cur.rxAppend b s.timeIn = s.cur.store b := by simp [Slot.rxAppend, hnot]
  rw [exec_rxb hport, State.bufAppend_of_not_completes hnot, hslot, hnot]
  rfl

/-- `Rx.reset` with the length of the type written out (R142): that length is within the capacity. -/
theorem Slot.rxReset_eq (sl : Slot) (t : TxType) :
    sl.rxReset t = { sl with
      packet := { sl.packet with cursor := 0, length := BitVec.ofNat 8 (config.len t) }
      health := .notChecked, txType := t } := by
  rw [Slot.rxReset, Packet.setLength_len]
  rfl

/-- Settles O24: `Buf.append` completes the packet (`State.bufAppend_cases`); of the completed slot the
pipeline keeps the packet record and the type. -/
theorem rxbCompletesAndRotates : Obligations.RxbCompletesAndRotates := by
  intro b s hport hlast
  have hr : s.cur.packet.hasRoom = true := (Packet.hasRoom_iff _).2 (by omega)
  have hdone : s.cur.completes b = true := (s.cur.completes_iff b).2 hlast
  rcases s.bufAppend_cases b with ⟨-, hslot, e⟩ | ⟨hnot, -⟩
  · have hpacket : ((s.cur.store b).postProcess s.timeIn).packet = s.cur.packet.append b :=
      Slot.postProcess_packet _ _
    refine ⟨nextSlot s.current, (s.cur.store b).postProcess s.timeIn,
      (s.slot (nextSlot s.current)).rxReset s.rxTypeSel, nextSlot_val _, ?exec, ?length, ?cursor,
      fun i => ?bytes, Slot.postProcess_txType _ _, Slot.postProcess_timecode _ _,
      Slot.postProcess_health _ _, Slot.rxReset_eq _ _⟩
    case exec =>
      rw [exec_rxb hport, e, hslot, hdone]
      rfl
    case length => rw [hpacket, Packet.append_length]
    case cursor => rw [hpacket, ← BitVec.toNat_inj, Packet.append_cursor hr, hlast]
    case bytes =>
      rw [hpacket]
      exact Packet.append_bytes hr b i
  · rw [hdone] at hnot
    cases hnot

/-- Settles O28: the invariants leave room in the current slot, and `State.rxb_packet` says what becomes
of its packet. -/
theorem rxbAlwaysStoresItsByte : Obligations.RxbAlwaysStoresItsByte := by
  intro b s hinv hport
  obtain ⟨⟨⟨⟨hpacket, -⟩, hlt⟩, -⟩, -⟩ := s.inv_iff.1 hinv
  have hr : s.cur.packet.hasRoom = true := (Packet.hasRoom_iff _).2 hlt
  refine ⟨Instr.effect s (.rxb b), exec_rxb hport b, ?byte, ?cursor, ?response⟩
  case byte => rw [s.rxb_packet, Packet.byteAt_append hpacket hr, if_pos rfl]
  case cursor => rw [s.rxb_packet, Packet.append_cursor hr]
  case response =>
    rw [Instr.effect, State.respond_response]
    cases s.cur.completes b with
    | false => exact .inl rfl
    | true => exact .inr rfl

/-! ### `RXTYPE` and `RXRST` -/

theorem exec_rxtype {s : State} (hport : s.port = .p) (t : TxType) :
    exec (.rxtype t) s = .next ((s.tellType t).respond 0) :=
  State.onPort_accepted hport _

/-- Settles O30, by the two cases of `State.tellType_cases`. -/
theorem rxtypeTellsTheType : Obligations.RxtypeTellsTheType := by
  intro t s hport
  rw [exec_rxtype hport]
  rcases s.tellType_cases t with ⟨hempty, e⟩ | ⟨hbytes, e⟩
  · rw [e, if_pos hempty, Slot.retype, Packet.setLength_len]
    rfl
  · rw [e, if_neg hbytes]
    rfl

theorem exec_rxrst {s : State} (hport : s.port = .p) :
    exec .rxrst s = .next ((s.setCur (s.cur.rxReset s.rxTypeSel)).respond 0) :=
  State.onPort_accepted hport _

/-- The flags of a slot that still misses bytes are 0 (R38): it is neither done nor checked. -/
theorem Slot.Receiving.flags {sl : Slot} (h : sl.Receiving) :
    sl.isDone = false ∧ sl.isOk = false ∧ sl.isPairing = false := by
  have hhealth := h.health
  obtain ⟨-, hlt⟩ := h
  simp only [← Bool.not_eq_true, Slot.isDone_iff, Slot.isOk_iff, Slot.isPairing_iff, hhealth]
  exact ⟨fun hdone => BitVec.lt_irrefl _ (hdone ▸ hlt), nofun, nofun⟩

/-- Settles O31: the slot is receiving after `Rx.reset`, and before it by the invariants. -/
theorem rxrstEmptiesTheCurrentSlot : Obligations.RxrstEmptiesTheCurrentSlot := by
  refine ⟨instrDecodesFromItsEncoding .rxrst, fun s hport => ?_⟩
  rw [← Slot.rxReset_eq]
  refine ⟨exec_rxrst hport, (Slot.rxReset_receiving _ _).flags, fun hinv => ?_⟩
  obtain ⟨⟨hrecv, -⟩, -⟩ := s.inv_iff.1 hinv
  exact hrecv.flags

end Sys2Proof.Machine
end

section
/-! PROOFS. The slot pool along a run (spec 43_packetbuffer.md R190, R191, R194): what a step may write
of it, and how long a slot is kept. -/

namespace Sys2Proof.Machine

/-! ### The pool along a step -/

/-- What a step other than `rst` may do to the pool (R190, R191): act on the current slot alone, or
complete its packet and move on to the next slot. -/
inductive PoolStep (s t : State) : Prop where
  | stays (hcurrent : t.current = s.current)
      (hkept : ∀ k, k ≠ s.current → t.slot k = s.slot k)
  | rotates (hnotified : t.notified = true) (hcurrent : t.current = nextSlot s.current)
      (hkept : ∀ k, k ≠ s.current → k ≠ nextSlot s.current → t.slot k = s.slot k)

theorem PoolStep.of_setCur {s t : State} {sl : Slot} (hslots : t.slots = (s.setCur sl).slots)
    (hcurrent : t.current = s.current) : PoolStep s t := by
  refine .stays hcurrent fun k hk => ?_
  rw [State.slot_congr hslots, State.slot_setCur, if_neg hk.symm]

theorem PoolStep.of_slots_eq {s t : State} (hslots : t.slots = s.slots)
    (hcurrent : t.current = s.current) : PoolStep s t :=
  .stays hcurrent fun k _ => State.slot_congr hslots k

theorem PoolStep.of_rxView_eq {s t : State} (h : t.rxView = s.rxView) : PoolStep s t := by
  obtain ⟨hslots, hcurrent, -, -⟩ := State.rxView_eq_iff.1 h
  exact .of_slots_eq hslots hcurrent

theorem PoolStep.rxb {s : State} (hport : s.port = .p) (b : Byte) :
    PoolStep s (Instr.effect s (.rxb b)) := by
  rw [Instr.effect]
  rcases s.bufAppend_cases b with ⟨hdone, -, e⟩ | ⟨-, e⟩
  · rw [e, hdone]
    refine .rotates (by simp [State.notified, hport]) rfl fun k hk hnext => ?_
    rw [State.respond_slot, State.slot_rotated, if_neg hnext.symm, if_neg hk.symm]
  · rw [e]
    exact .of_setCur rfl rfl

theorem PoolStep.rxtype (s : State) (t : TxType) : PoolStep s (Instr.effect s (.rxtype t)) := by
  rw [Instr.effect]
  rcases s.tellType_cases t with ⟨-, e⟩ | ⟨-, e⟩
  · rw [e]
    exact .of_setCur (sl := s.cur.retype t) rfl rfl
  · rw [e]
    exact .of_slots_eq rfl rfl

theorem PoolStep.effect {s : State} {i : Instr} (hacc : i.acceptedOn s.port = true) :
    PoolStep s (Instr.effect s i) := by
  cases i with
  | rxb b => exact .rxb (by simpa [Instr.acceptedOn] using hacc) b
  | rxtype t => exact .rxtype s t
  | rxrst => exact .of_setCur (sl := s.cur.rxReset s.rxTypeSel) rfl rfl
  | nop => exact .of_rxView_eq (Instr.effect_rxView rfl s)
  | rd a => exact .of_rxView_eq (Instr.effect_rxView rfl s)
  | txasm c n => exact .of_rxView_eq (Instr.effect_rxView rfl s)
  | txnext => exact .of_rxView_eq (Instr.effect_rxView rfl s)
  | txrst => exact .of_rxView_eq (Instr.effect_rxView rfl s)

/-- Every step but `rst` is a step of the pool: of the kinds of step of `step_cases` only a command
touches it. -/
theorem PoolStep.of_step {s t : State} (hrst : s.inputs.head? ≠ some .rst)
    (hstep : step s = .next t) : PoolStep s t := by
  rcases step_cases hstep with ⟨-, rfl⟩ | ⟨rest, hin, -⟩ | ⟨x, rest, -, rfl⟩ |
    ⟨w, rest, -, -, rfl⟩ | ⟨q, w, rest, i, -, -, -, hacc, rfl⟩ | ⟨q, w, rest, -, -, -, rfl⟩
  · exact .of_slots_eq rfl rfl
  · exact absurd (congrArg List.head? hin) hrst
  · exact .of_slots_eq rfl rfl
  · exact .of_rxView_eq (State.takeDataWord_rxView { s with inputs := rest, port := .c } w)
  · -- The words taken off the inputs are not of the pool, so this is a step from `s` as well.
    cases PoolStep.effect (s := { s with inputs := rest, port := q }) hacc with
    | stays hcurrent hkept => exact .stays hcurrent hkept
    | rotates hnotified hcurrent hkept => exact .rotates hnotified hcurrent hkept
  · exact .of_slots_eq rfl rfl

/-- Settles O56: the two kinds of `PoolStep`, read for one slot. -/
theorem stepWritesOnlyCurrentAndNextSlot : Obligations.StepWritesOnlyCurrentAndNextSlot := by
  intro s t k hrst hstep
  by_cases hk : k = s.current
  · exact .inr (.inl hk)
  · cases PoolStep.of_step hrst hstep with
    | stays _ hkept => exact .inl (hkept k hk)
    | rotates hnotified _ hkept =>
      by_cases hnext : k = nextSlot s.current
      · exact .inr (.inr ⟨hnext, hnotified⟩)
      · exact .inl (hkept k hk hnext)

/-! ### The distance of a slot from the current one -/

theorem State.distance_congr {s t : State} (h : t.current = s.current) (k : Fin config.nSlots) :
    t.distance k = s.distance k := by
  rw [State.distance, State.distance, h]

theorem State.ne_current_of_distance_pos {s : State} {k : Fin config.nSlots}
    (h : 0 < s.distance k) : k ≠ s.current := by
  rintro rfl
  simp [State.distance] at h

/-- A rotation brings every slot but the one it leaves one nearer. -/
theorem State.distance_of_rotated {s t : State} (h : t.current = nextSlot s.current)
    {k : Fin config.nSlots} (hk : k ≠ s.current) : t.distance k + 1 = s.distance k := by
  have hne : k.val ≠ s.current.val := fun e => hk (Fin.ext e)
  have hklt := slotIndex_lt k
  have hclt := slotIndex_lt s.current
  simp only [State.distance, h, nextSlot_val, config_nSlots]
  omega

/-! ### The pool along a run -/

theorem State.completions_cons {s t : State} {i : Input} {is : List Input}
    (h : step { s with inputs := [i] } = .next t) :
    s.completions (i :: is) = (if t.notified then 1 else 0) + t.completions is := by
  simp [State.completions, h]

/-- Settles O55, by induction over the run: a step that rotates the pool brings slot `k` one nearer and
counts as one completion, and no other step moves the pool. -/
theorem slotIsKeptUntilThePoolWraps : Obligations.SlotIsKeptUntilThePoolWraps := by
  intro s t ins k hrst hfew hrun
  induction ins generalizing s with
  | nil =>
    obtain rfl : s = t := Option.some.inj hrun
    rfl
  | cons i is ih =>
    obtain ⟨hi, his⟩ := not_or.1 (mt List.mem_cons.2 hrst)
    obtain ⟨u, hstep⟩ : ∃ u, step { s with inputs := [i] } = .next u := ⟨_, step_cons rfl⟩
    rw [State.runInputs_cons hstep] at hrun
    rw [State.completions_cons hstep] at hfew
    have hk : k ≠ s.current := State.ne_current_of_distance_pos (by omega)
    cases PoolStep.of_step (by simpa using Ne.symm hi) hstep with
    | stays hcurrent hkept =>
      have hdist := State.distance_congr (s := s) hcurrent k
      exact (ih _ his (by omega) hrun).trans (hkept k hk)
    | rotates hnotified hcurrent hkept =>
      rw [if_pos hnotified] at hfew
      have hdist := State.distance_of_rotated (s := s) hcurrent hk
      have hnext : k ≠ u.current := State.ne_current_of_distance_pos (by omega)
      exact (ih _ his (by omega) hrun).trans (hkept k hk (hcurrent ▸ hnext))

end Sys2Proof.Machine
end

section
/-! PROOFS. `NOP`, the defined word of an idle port (spec 44_read_port.md R211; 30_encoding.md R101). -/

namespace Sys2Proof.Machine

/-- `NOP` is accepted on both ports, so of the two outcomes of a command it has only its effect. -/
theorem exec_nop (s : State) : exec .nop s = .next { s with response := some 0x00 } := by
  rcases exec_cases .nop s with ⟨-, e⟩ | ⟨hrefused, -⟩
  · exact e
  · cases hrefused

/-- In data-word mode the word of `NOP` carries the payload byte 0x00. -/
theorem encode_nop_payloadByte : (encode .nop).extractLsb' 0 8 = (0x00 : Byte) := by decide

/-- Settles O22: the command by O1 and `exec_nop`; in data-word mode the word is collected (O7) with the
payload byte of `encode_nop_payloadByte`. -/
theorem nopOnlyResponds : Obligations.NopOnlyResponds := by
  refine ⟨instrDecodesFromItsEncoding .nop, exec_nop, fun s rest hin hactive => ?dataWord⟩
  case dataWord =>
    have hstep := dataWordIsCollected s (encode .nop) rest hin hactive
    rw [encode_nop_payloadByte] at hstep
    refine ⟨_, hstep, ?_⟩
    by_cases hlast : s.asm.buf.length + 1 = s.asm.n.toNat
    · rw [if_pos hlast, if_pos hlast]
      exact ⟨rfl, rfl, rfl⟩
    · rw [if_neg hlast, if_neg hlast]
      exact ⟨rfl, rfl, rfl⟩

end Sys2Proof.Machine
end

section
/-! PROOFS. Errors (spec 60_exceptions.md R220, R222, R223): no command raises an exception, and
what the two errors of the completing `RXB` record. -/

namespace Sys2Proof.Machine

/-! ### Every command and every step answers -/

theorem State.respondWith_responds (s : State) (r : Option Byte) :
    ∃ b, (s.respondWith r).response = some b := by
  rcases s.respondWith_cases r with ⟨b, -, e⟩ | ⟨-, e⟩
  · exact ⟨b, by rw [e, State.respond_response]⟩
  · exact ⟨_, by rw [e, State.respondFree_response]⟩

theorem State.emitNext_responds (s : State) : ∃ b, s.emitNext.response = some b := by
  rcases s.emitNext_cases with ⟨-, e⟩ | ⟨-, e⟩
  · exact ⟨_, by rw [e]⟩
  · exact ⟨_, by rw [e, State.respondFree_response]⟩

/-- An accepted command returns a byte it names, but `RD` and `TXNEXT`, whose byte may be a free
value (U1, U2). -/
theorem Instr.effect_responds (i : Instr) (s : State) :
    ∃ b, (Instr.effect s i).response = some b := by
  cases i with
  | nop => exact ⟨_, State.noOp_response s⟩
  | rxb b => exact ⟨_, State.respond_response _ _⟩
  | rxtype t => exact ⟨_, State.respond_response _ _⟩
  | rxrst => exact ⟨_, State.respond_response _ _⟩
  | rd a => exact s.respondWith_responds _
  | txasm c n => exact ⟨_, State.respond_response _ _⟩
  | txnext => exact s.emitNext_responds
  | txrst => exact ⟨_, State.respond_response _ _⟩

/-- A command on the wrong port responds too, as a no-op (R110). -/
theorem exec_responds (i : Instr) (s : State) :
    ∃ t b, exec i s = .next t ∧ t.response = some b := by
  rcases exec_cases i s with ⟨-, e⟩ | ⟨-, e⟩
  · obtain ⟨b, hb⟩ := Instr.effect_responds i s
    exact ⟨_, b, e, hb⟩
  · exact ⟨_, _, e, s.noOp_response⟩

theorem step_answers (s : State) : ∃ t, step s = .next t := by
  cases h : s.inputs with
  | nil => exact ⟨_, step_idle h⟩
  | cons i rest => exact ⟨_, step_cons h⟩

/-- Settles O10, for a command by `exec_cases` and for a step by its first input. -/
theorem nothingEverStops : Obligations.NothingEverStops :=
  ⟨exec_responds, step_answers⟩

/-! ### The two errors of the completing `RXB` -/

theorem frameValid_eq_false_iff (raw : List Byte) :
    frameValid raw = false ↔ ∃ e ∈ raw, validRaw e = false := by
  simp [frameValid]

/-- E1 (R222): the pipeline stops before it decodes. -/
theorem Slot.postProcess_store_of_invalid {sl : Slot} (hi : sl.Inv)
    (hr : sl.packet.hasRoom = true) {b : Byte} (t : BitVec 32)
    (hinvalid : frameValid (sl.frameWith b) = false) :
    (sl.store b).postProcess t = { sl.store b with health := .bad, timecode := .stored t } := by
  rcases Slot.postProcess_store_cases hi hr b t with ⟨-, e⟩ | ⟨hvalid, -⟩ | ⟨hvalid, -⟩
  · exact e
  · rw [hinvalid] at hvalid; cases hvalid
  · rw [hinvalid] at hvalid; cases hvalid

/-- E2 (R223): the pipeline stops after it has decoded the bytes. -/
theorem Slot.postProcess_store_of_mismatch {sl : Slot} (hi : sl.Inv)
    (hr : sl.packet.hasRoom = true) {b : Byte} (t : BitVec 32)
    (hvalid : frameValid (sl.frameWith b) = true)
    (hsum : checksumOk (decodeFrame (sl.frameWith b)) = false) :
    (sl.store b).postProcess t =
      { (sl.store b).deManchesterise with health := .bad, timecode := .stored t } := by
  rcases Slot.postProcess_store_cases hi hr b t with ⟨hinvalid, -⟩ | ⟨-, -, e⟩ | ⟨-, hmatch, -⟩
  · rw [hvalid] at hinvalid; cases hinvalid
  · exact e
  · rw [hsum] at hmatch; cases hmatch

/-- Where the next byte is the last of the frame, the current slot has room for it. -/
theorem State.cur_inv_hasRoom {s : State} (hinv : s.Inv)
    (hlast : s.cur.packet.cursor.toNat + 1 = s.cur.packet.length.toNat) :
    s.cur.Inv ∧ s.cur.packet.hasRoom = true := by
  obtain ⟨hslots, -⟩ := hinv
  exact ⟨hslots s.current, (Packet.hasRoom_iff _).2 (by omega)⟩

/-- Settles O25: on an invalid frame the pipeline writes only the health and the time. -/
theorem invalidSymbolMakesPacketBad : Obligations.InvalidSymbolMakesPacketBad := by
  intro b s hinv hport hlast hsymbol
  obtain ⟨hsl, hr⟩ := State.cur_inv_hasRoom hinv hlast
  have hinvalid := (frameValid_eq_false_iff _).2 hsymbol
  obtain ⟨hresp, hcurrent, hslot, hnext⟩ := State.rxb_completes (b := b) hlast
  refine ⟨Instr.effect s (.rxb b), exec_rxb hport b, hresp, hcurrent, ?_⟩
  rw [hcurrent, hslot, Slot.postProcess_store_of_invalid hsl hr s.timeIn hinvalid]
  exact ⟨rfl, rfl, rfl, rfl, rfl, hnext⟩

/-- Settles O26: on a wrong checksum the pipeline has written the decoded bytes
(`Slot.payload_store`) and, but for the health and the time, nothing else. -/
theorem checksumMismatchMakesPacketBad : Obligations.ChecksumMismatchMakesPacketBad := by
  intro b s hinv hport hlast hvalid hsum
  obtain ⟨hsl, hr⟩ := State.cur_inv_hasRoom hinv hlast
  have ⟨hpacket, _⟩ := hsl
  obtain ⟨hresp, hcurrent, hslot, hnext⟩ := State.rxb_completes (b := b) hlast
  refine ⟨Instr.effect s (.rxb b), exec_rxb hport b, hresp, hcurrent, ?_⟩
  rw [hcurrent, hslot, Slot.postProcess_store_of_mismatch hsl hr s.timeIn hvalid hsum]
  exact ⟨rfl, Slot.payload_store hpacket hr b, rfl, rfl, rfl, hnext⟩

end Sys2Proof.Machine
end

section
/-! PROOFS. Reset (spec 70_reset_and_hazards.md R260, R261) and the reads of registers that commands
have written (93_implementation_defined.md U2). -/

namespace Sys2Proof.Machine

/-! ### What an Ok slot answers to a read -/

theorem Reg.byte_specified {n : Nat} {r : Reg n} (hwritten : r.written = true) (i : Nat) :
    ∃ b, r.byte i = some b :=
  ⟨_, if_pos hwritten⟩

/-- An Ok slot holds its whole frame: it is not NotChecked, so no byte is missing (R39 item 6). -/
theorem Slot.cursor_eq_length_of_ok {sl : Slot} (hinv : sl.Inv) (hok : sl.health = .ok) :
    sl.packet.cursor = sl.packet.length := by
  obtain ⟨⟨hle, -⟩, -, hmissing⟩ := hinv
  have hfull : ¬ sl.packet.cursor < sl.packet.length := by
    rw [← hmissing, hok]
    exact Health.noConfusion
  exact BitVec.le_antisymm hle (BitVec.not_lt.1 hfull)

theorem Slot.raw_specified_of_ok {sl : Slot} (hinv : sl.Inv) (hwritten : sl.Written)
    (hok : sl.health = .ok) {i : Nat} (hi : i < sl.packet.length.toNat) :
    ∃ b, sl.windowByte (BitVec.ofNat 6 i) = some b := by
  have ⟨⟨_, hmax⟩, _⟩ := hinv
  obtain ⟨hraw, -⟩ := hwritten
  have hreceived : i < sl.packet.cursor.toNat := by rwa [Slot.cursor_eq_length_of_ok hinv hok]
  rw [sl.windowByte_raw ⟨i, hi.trans_le hmax⟩]
  exact Reg.byte_specified (hraw ⟨i, hi.trans_le hmax⟩ hreceived) 0

theorem Slot.payload_specified_of_ok {sl : Slot} (hinv : sl.Inv) (hwritten : sl.Written)
    (hok : sl.health = .ok) {j : Nat} (hj : j < sl.packet.length.toNat / 2) :
    ∃ b, sl.windowByte (BitVec.ofNat 6 (0x20 + j)) = some b := by
  obtain ⟨⟨-, hmax⟩, -⟩ := hinv
  obtain ⟨-, -, hfields⟩ := hwritten
  obtain ⟨-, -, hpayload⟩ := hfields hok
  have hdcap : j < config.dcap := hj.trans_le (Nat.div_le_div_right hmax)
  rw [sl.windowByte_payload ⟨j, hdcap⟩]
  exact Reg.byte_specified (hpayload ⟨j, hdcap⟩ hj) 0

theorem Slot.windowByte_control_specified (sl : Slot) (i : Fin 4) :
    ∃ b, sl.windowByte (BitVec.ofNat 6 (0x30 + i.val)) = some b :=
  match i with
  | 0 | 1 | 2 | 3 => ⟨_, rfl⟩

/-- The upper quarter of the slot window (R63): four control bytes, the identifier, the low and the
high bytes of the readings, and the time. -/
theorem windowField_cases : ∀ m : Fin 16,
    (∃ i : Fin 4, 0x30 + m.val = 0x30 + i.val) ∨ (∃ i : Fin 2, 0x30 + m.val = 0x34 + i.val) ∨
      (∃ c : Fin 3, 0x30 + m.val = 0x36 + 2 * c.val) ∨
      (∃ c : Fin 3, 0x30 + m.val = 0x37 + 2 * c.val) ∨
      ∃ i : Fin 4, 0x30 + m.val = 0x3C + i.val := by decide

theorem Slot.field_specified_of_ok {sl : Slot} (hwritten : sl.Written) (hok : sl.health = .ok)
    (m : Fin 16) : ∃ b, sl.windowByte (BitVec.ofNat 6 (0x30 + m.val)) = some b := by
  obtain ⟨-, htime, hfields⟩ := hwritten
  obtain ⟨hid, hwatts, -⟩ := hfields hok
  have hchecked : sl.health ≠ .notChecked := by rw [hok]; exact Health.noConfusion
  rcases windowField_cases m with ⟨i, e⟩ | ⟨i, e⟩ | ⟨c, e⟩ | ⟨c, e⟩ | ⟨i, e⟩ <;> rw [e]
  · exact sl.windowByte_control_specified i
  · rw [sl.windowByte_id]
    exact Reg.byte_specified hid i.val
  · rw [sl.windowByte_watts_low]
    exact Reg.byte_specified (hwatts c) 0
  · rw [sl.windowByte_watts_high]
    exact Reg.byte_specified (hwatts c) 1
  · rw [sl.windowByte_timecode]
    exact Reg.byte_specified (htime hchecked) i.val

/-- Settles O20: each of the three ranges lies in the window of slot `k` (`State.memRead_slot`) and has
its own lemma there. -/
theorem okSlotMeaningfulReadsAreSpecified : Obligations.OkSlotMeaningfulReadsAreSpecified := by
  intro s k off ⟨hinv, _⟩ ⟨hwritten, _⟩ hok hrange
  have hok := (Slot.isOk_iff _).1 hok
  have hmax : (s.slot k).packet.length.toNat ≤ 32 := (hinv k).1.2
  rw [s.memRead_slot k (by omega)]
  rcases hrange with ⟨hlo, hhi⟩ | hraw | ⟨hlo, hhi⟩
  · obtain ⟨m, rfl⟩ := Nat.exists_eq_add_of_le hlo
    exact Slot.field_specified_of_ok (hwritten k) hok ⟨m, by omega⟩
  · exact Slot.raw_specified_of_ok (hinv k) (hwritten k) hok hraw
  · obtain ⟨j, rfl⟩ := Nat.exists_eq_add_of_le hlo
    exact Slot.payload_specified_of_ok (hinv k) (hwritten k) hok (by omega)

/-! ### Right after reset -/

theorem Packet.atReset_unwritten (n : Nat) (i : Fin config.capacity) :
    (Packet.atReset n).bytes[i].written = false := by
  simp [Packet.atReset]

theorem Slot.atReset_payload_unwritten (j : Fin config.dcap) :
    Slot.atReset.payload[j].written = false := by
  simp [Slot.atReset]

theorem Slot.atReset_watts_unwritten (c : Fin 3) : Slot.atReset.watts[c].written = false := by
  simp [Slot.atReset]

/-- Settles O13: every slot is `Slot.atReset`, whose data registers are unwritten one by one. -/
theorem resetValuesOfControlRegisters : Obligations.ResetValuesOfControlRegisters := by
  refine ⟨fun k => ?control, rfl, rfl, rfl, rfl, rfl, rfl, fun k => ?data,
    Packet.atReset_unwritten 0⟩
  case control =>
    rw [State.reset_slot]
    exact ⟨rfl, rfl, rfl, len_toNat .txOnly⟩
  case data =>
    rw [State.reset_slot]
    exact ⟨Packet.atReset_unwritten _, Slot.atReset_payload_unwritten, rfl,
      Slot.atReset_watts_unwritten, rfl⟩

/-- Settles O14: `rst` is answered by `State.applyRst`, which takes each register from the reset
state. -/
theorem rstInputResetsEveryRegister : Obligations.RstInputResetsEveryRegister := by
  intro s rest hin
  exact ⟨_, step_rst hin, rfl, rfl, rfl, rfl, rfl, rfl, rfl, rfl⟩

/-- Settles O15: an address is looked up in the window it lies in (R63 to R65), and the byte there is a
control register or STATUS. -/
theorem resetStateReadsAsStated : Obligations.ResetStateReadsAsStated := by
  have slotByte (k : Fin config.nSlots) {off : Nat} {b : Byte} (ho : off < 64)
      (hb : Slot.atReset.windowByte (BitVec.ofNat 6 off) = some b) :
      State.reset.memRead (BitVec.ofNat 12 (0x40 * k.val + off)) = some b := by
    rw [State.memRead_slot _ k ho, State.reset_slot, hb]
  have txByte (o : Nat) {b : Byte} (ho : o < 0x40) (hb : State.reset.txWindowByte o = some b) :
      State.reset.memRead (BitVec.ofNat 12 (0x800 + o)) = some b :=
    (State.memRead_tx _ ho).trans hb
  have globalByte (o : Nat) {b : Byte} (ho : o < 0x40) (hb : State.reset.globalByte o = b) :
      State.reset.memRead (BitVec.ofNat 12 (0x840 + o)) = some b :=
    (State.memRead_global _ ho).trans (congrArg some hb)
  exact ⟨fun k => ⟨slotByte k (by decide) rfl, slotByte k (by decide) rfl,
      slotByte k (by decide) rfl, slotByte k (by decide) rfl⟩,
    globalByte 0x00 (by decide) rfl, globalByte 0x01 (by decide) rfl, txByte 0x20 (by decide) rfl,
    txByte 0x21 (by decide) rfl, txByte 0x22 (by decide) (congrArg some State.reset.txStatus_eq)⟩

/-- No byte has been received and nothing is checked, so no register of the slot is meaningful. -/
theorem Slot.atReset_written : Slot.atReset.Written :=
  ⟨fun i hi => absurd hi (Nat.not_lt_zero i.val), fun hchecked => absurd rfl hchecked,
    fun hok => Health.noConfusion hok⟩

/-- Settles O19: every slot is `Slot.atReset`, and the TX packet has length zero. -/
theorem resetHasMeaningfulRegistersWritten : Obligations.ResetHasMeaningfulRegistersWritten := by
  refine ⟨fun k => ?slot, fun i hi => absurd hi (Nat.not_lt_zero i.val)⟩
  case slot =>
    rw [State.reset_slot]
    exact Slot.atReset_written

end Sys2Proof.Machine
end

section
/-! PROOFS. The written data registers along a step (spec 93_implementation_defined.md U2; 10_state.md
R20 to R36). -/

namespace Sys2Proof.Machine

/-! ### Packet records -/

/-- Every stored byte below index `n` has been written since reset: the received bytes of a slot with
`n` its cursor, the assembled frame of the TX packet with `n` its length. -/
def Packet.WrittenBelow (p : Packet) (n : Nat) : Prop :=
  ∀ i : Fin config.capacity, i.val < n → p.bytes[i].written = true

theorem Slot.written_iff (sl : Slot) :
    sl.Written ↔ sl.packet.WrittenBelow sl.packet.cursor.toNat ∧
      (sl.health ≠ .notChecked → sl.timecode.written = true) ∧
      (sl.health = .ok → sl.id.written = true ∧ (∀ c : Fin 3, sl.watts[c].written = true) ∧
        ∀ j : Fin config.dcap, j.val < sl.packet.length.toNat / 2 → sl.payload[j].written = true) :=
  Iff.rfl

theorem Packet.writtenBelow_zero (p : Packet) : p.WrittenBelow 0 :=
  fun i hi => absurd hi (Nat.not_lt_zero i.val)

/-- The one byte the cursor moves past is the byte just stored (R122). -/
theorem Packet.WrittenBelow.append {p : Packet} (h : p.WrittenBelow p.cursor.toNat) (b : Byte) :
    (p.append b).WrittenBelow (p.append b).cursor.toNat := by
  cases hr : p.hasRoom
  · rwa [Packet.append_full hr]
  · intro i hi
    rw [Packet.append_cursor hr] at hi
    rw [Packet.append_bytes hr]
    split
    · exact Reg.stored_written b
    · exact h i (by omega)

/-- Assembly stores every byte below the length it sets, cut frame or not (R171, R173). -/
theorem Packet.assemble_writtenBelow (p : Packet) (bs : List Byte) (c : Bool) :
    (p.assemble bs c).WrittenBelow (p.assemble bs c).length.toNat := by
  intro i hi
  rw [Packet.assemble_length_toNat, Nat.lt_min] at hi
  rw [Packet.assemble_bytes, if_pos hi.1]
  exact Reg.stored_written _

/-! ### Slots -/

/-- Of a NotChecked slot only the received bytes are meaningful. -/
theorem Slot.written_of_notChecked {sl : Slot} (hhealth : sl.health = .notChecked)
    (hraw : sl.packet.WrittenBelow sl.packet.cursor.toNat) : sl.Written := by
  refine sl.written_iff.2 ⟨hraw, fun hchecked => absurd hhealth hchecked, fun hok => ?_⟩
  rw [hhealth] at hok
  cases hok

theorem Slot.rxReset_written (sl : Slot) (t : TxType) : (sl.rxReset t).Written :=
  Slot.written_of_notChecked rfl (Packet.writtenBelow_zero _)

/-- A change of type keeps the received bytes; it may lengthen the packet, so it needs a slot whose
decoded bytes are not meaningful. -/
theorem Slot.Written.retype {sl : Slot} (h : sl.Written) (hhealth : sl.health = .notChecked)
    (t : TxType) : (sl.retype t).Written :=
  Slot.written_of_notChecked hhealth h.1

theorem Slot.Written.store {sl : Slot} (h : sl.Written) (b : Byte) : (sl.store b).Written := by
  obtain ⟨hraw, htime, hdecoded⟩ := sl.written_iff.1 h
  refine (Slot.written_iff _).2 ⟨hraw.append b, htime, ?_⟩
  rw [Slot.store_packet, Packet.append_length]
  exact hdecoded

/-- The Manchester step writes every decoded byte of the packet (R147). -/
theorem Slot.deManchesterise_payload_written (sl : Slot) {j : Fin config.dcap}
    (hj : j.val < sl.packet.length.toNat / 2) : sl.deManchesterise.payload[j].written = true := by
  rw [Slot.deManchesterise_payload, if_pos hj]
  exact Reg.stored_written _

/-- The pipeline writes all that its verdict makes meaningful: the time whatever the verdict (R152),
the decoded bytes and the fields where it is Ok (R146). -/
theorem Slot.Written.postProcess {sl : Slot} (h : sl.Written) (t : BitVec 32) :
    (sl.postProcess t).Written := by
  obtain ⟨hraw, -, -⟩ := sl.written_iff.1 h
  have htime : (sl.postProcess t).timecode.written = true := by
    rw [Slot.postProcess_timecode, Reg.stored_written]
  refine (Slot.written_iff _).2 ⟨by rwa [Slot.postProcess_packet], fun _ => htime, fun hok => ?_⟩
  rcases sl.postProcess_cases t with ⟨-, e⟩ | ⟨-, -, e⟩ | ⟨-, -, e⟩
  · rw [e] at hok
    cases hok
  · rw [e] at hok
    cases hok
  · rw [e]
    refine ⟨rfl, fun c => ?_, fun j hj => sl.deManchesterise_payload_written hj⟩
    exact congrArg Reg.written (Slot.decodeWattage_watts _ c)

theorem Slot.Written.rxAppend {sl : Slot} (h : sl.Written) (b : Byte) (t : BitVec 32) :
    (sl.rxAppend b t).Written := by
  rcases sl.rxAppend_cases b t with ⟨-, -, -, e⟩ | ⟨-, -, -, e⟩ | ⟨-, -, e⟩
  · rw [e]
    exact (h.store b).postProcess t
  · rw [e]
    exact h.store b
  · rwa [e]

/-! ### The receive side -/

/-- The half of `State.Written` that speaks of the pool, which port P writes. -/
def State.PoolWritten (s : State) : Prop := ∀ k, (s.slot k).Written

theorem State.PoolWritten.congr {s t : State} (h : s.PoolWritten) (hview : t.rxView = s.rxView) :
    t.PoolWritten := by
  obtain ⟨hslots, -, -, -⟩ := State.rxView_eq_iff.1 hview
  intro k
  rw [State.slot_congr hslots]
  exact h k

theorem State.PoolWritten.setCur {s : State} (h : s.PoolWritten) {sl : Slot} (hsl : sl.Written) :
    (s.setCur sl).PoolWritten := by
  intro k
  rw [State.slot_setCur]
  split
  · exact hsl
  · exact h k

theorem State.PoolWritten.bufAppend {s : State} (h : s.PoolWritten) (b : Byte) :
    (s.bufAppend b).PoolWritten := by
  have hstored : (s.cur.rxAppend b s.timeIn).Written := Slot.Written.rxAppend (h s.current) b s.timeIn
  rcases s.bufAppend_cases b with ⟨-, -, e⟩ | ⟨-, e⟩
  · rw [e]
    intro k
    rw [State.slot_rotated]
    split
    · exact Slot.rxReset_written _ _
    · split
      · exact hstored
      · exact h k
  · rw [e]
    exact h.setCur hstored

theorem State.PoolWritten.tellType {s : State} (h : s.PoolWritten)
    (hcur : s.cur.health = .notChecked) (t : TxType) : (s.tellType t).PoolWritten := by
  rcases s.tellType_cases t with ⟨-, e⟩ | ⟨-, e⟩
  · rw [e]
    exact State.PoolWritten.setCur (s := { s with rxTypeSel := t }) h
      (Slot.Written.retype (h s.current) hcur t)
  · rw [e]
    exact h

/-- Every command keeps the pool's half; of the invariants of R39 only `RXTYPE` needs one, that the
current slot is NotChecked. -/
theorem State.PoolWritten.effect {s : State} (h : s.PoolWritten)
    (hcur : s.cur.health = .notChecked) (i : Instr) : (Instr.effect s i).PoolWritten := by
  cases i with
  | rxb b => exact (h.bufAppend b).congr (State.respond_rxView _ _)
  | rxtype t => exact (h.tellType hcur t).congr (State.respond_rxView _ _)
  | rxrst => exact (h.setCur (Slot.rxReset_written _ _)).congr (State.respond_rxView _ _)
  | nop => exact h.congr (Instr.effect_rxView rfl s)
  | rd a => exact h.congr (Instr.effect_rxView rfl s)
  | txasm c n => exact h.congr (Instr.effect_rxView rfl s)
  | txnext => exact h.congr (Instr.effect_rxView rfl s)
  | txrst => exact h.congr (Instr.effect_rxView rfl s)

/-! ### The transmit side -/

/-- The half of `State.Written` that speaks of the TX packet, which port C writes. -/
def State.FrameWritten (s : State) : Prop := s.tx.WrittenBelow s.tx.length.toNat

theorem State.written_iff (s : State) : s.Written ↔ s.PoolWritten ∧ s.FrameWritten := Iff.rfl

theorem State.FrameWritten.congr {s t : State} (h : s.FrameWritten) (hside : t.txSide = s.txSide) :
    t.FrameWritten := by
  obtain ⟨htx, -⟩ := State.txSide_eq_iff.1 hside
  rwa [State.FrameWritten, htx]

theorem State.FrameWritten.startAssembly {s : State} (h : s.FrameWritten) (c : Bool) (n : Byte) :
    (s.startAssembly c n).FrameWritten := by
  rcases s.startAssembly_cases c n with ⟨-, e⟩ | ⟨-, e⟩
  · rw [e]
    exact s.tx.assemble_writtenBelow [] c
  · rw [e]
    exact h

theorem State.FrameWritten.takeDataWord {s : State} (h : s.FrameWritten) (w : Word) :
    (s.takeDataWord w).FrameWritten := by
  rcases s.takeDataWord_cases w with ⟨-, e⟩ | ⟨-, e⟩
  · rw [e]
    exact s.tx.assemble_writtenBelow _ _
  · rw [e]
    exact h

/-- Emission moves the cursor alone (R180). -/
theorem State.FrameWritten.emitNext {s : State} (h : s.FrameWritten) : s.emitNext.FrameWritten := by
  rcases s.emitNext_cases with ⟨-, e⟩ | ⟨-, e⟩
  · rw [e]
    exact h
  · rw [e]
    exact h

/-- Every command keeps the TX packet's half; those that port P accepts do not touch it. -/
theorem State.FrameWritten.effect {s : State} (h : s.FrameWritten) (i : Instr) :
    (Instr.effect s i).FrameWritten := by
  cases i with
  | txasm c n => exact (h.startAssembly c n).congr (State.respond_txSide _ _)
  | txnext => exact h.emitNext
  | txrst => exact h
  | rd a => exact h.congr (s.respondWith_txSide _)
  | nop => exact h.congr (Instr.effect_txSide rfl s)
  | rxb b => exact h.congr (Instr.effect_txSide rfl s)
  | rxtype t => exact h.congr (Instr.effect_txSide rfl s)
  | rxrst => exact h.congr (Instr.effect_txSide rfl s)

/-! ### Steps -/

/-- Settles O18, by the kinds of step of `step_cases`: after `rst` no register is meaningful, a data
word touches the TX packet alone, and a command keeps both halves by `effect`. -/
theorem stepKeepsMeaningfulRegistersWritten : Obligations.StepKeepsMeaningfulRegistersWritten := by
  intro s t hinv hwritten hstep
  obtain ⟨⟨hrecv, -⟩, -⟩ := s.inv_iff.1 hinv
  have hcur : s.cur.health = .notChecked := hrecv.health
  rw [State.written_iff] at hwritten ⊢
  obtain ⟨hpool, hframe⟩ := hwritten
  rcases step_cases hstep with ⟨-, rfl⟩ | ⟨rest, -, rfl⟩ | ⟨x, rest, -, rfl⟩ |
    ⟨w, rest, -, -, rfl⟩ | ⟨q, w, rest, i, -, -, -, -, rfl⟩ | ⟨q, w, rest, -, -, -, rfl⟩
  · exact ⟨hpool, hframe⟩
  · exact State.reset.written_iff.1 resetHasMeaningfulRegistersWritten
  · exact ⟨hpool, hframe⟩
  · exact ⟨hpool.congr (State.takeDataWord_rxView _ w),
      State.FrameWritten.takeDataWord (by exact hframe) w⟩
  · exact ⟨State.PoolWritten.effect (by exact hpool) (by exact hcur) i,
      State.FrameWritten.effect (by exact hframe) i⟩
  · exact ⟨hpool, hframe⟩

end Sys2Proof.Machine
end
